-- ==== Sys2Proof/Config.lean ====
section
/-! DEFINITION. The one open parameter of the hardware, the buffer capacity `BUF_CAP` (spec 00_scope R5,
20_memory R43, 92_eei_decisions D7): a natural number of bytes, or unbounded. A machine carries its capacity
in `State.bufCap`, which no step changes, so whatever is said of every state is said of every capacity. -/

namespace Sys2Proof

/-- The capacity `State.reset` starts with: unbounded.
DESIGN CHOICE (log 4), unsafe for a claim about a run from `State.reset` itself: the spec leaves `BUF_CAP`
open and suggests "unbounded, which is the document's software exactly" as the default for tests. -/
def Config.defaultBufCap : Option Nat := none

end Sys2Proof
end

