-- ==== Sys2Proof/Word.lean ====
section
/-! DEFINITION. The widths of the hardware (spec 00_scope R5, R6): a byte is 8 bits, a word 64 bits, a
command word 32 bits, a response code 4 bits. Every quantity is unsigned. -/

namespace Sys2Proof

/-- A byte: 8 bits (R6). -/
abbrev Byte := BitVec 8

/-- A word: 64 bits, always unsigned (R5 `W`, R6). -/
abbrev Word := BitVec 64

/-- A command word: 32 bits (R5 `CMD_BITS`, R52). -/
abbrev CmdWord := BitVec 32

/-- A response code: 4 bits (R5 `RSP_BITS`, R56). -/
abbrev RspCode := BitVec 4

end Sys2Proof
end

