-- ==== Sys2Proof/Syntax.lean ====
section
/-! DEFINITION. The six commands of spec/opcode_table.json (30_encoding R54), one constructor per row.
Every operand is an unsigned byte taken as it stands (R53). -/

namespace Sys2Proof

/-- A command; the hardware's "instruction" (00_scope section 6). -/
inductive Instr where
  /-- `KEYCLR`: empty the key staging (R70). -/
  | keyclr
  /-- `KEYPUSH b`: push one key byte (R71). -/
  | keypush (b : Byte)
  /-- `NEW c, d`: construct an instance with `c` compression and `d` finalization rounds (R72). -/
  | new (c d : Byte)
  /-- `APPEND b`: append one byte to the input buffer (R80). -/
  | append (b : Byte)
  /-- `RESET`: empty the buffer, keep the key and the rounds (R82). -/
  | reset
  /-- `FINALIZE`: compute and return the digest (R110). -/
  | finalize
  deriving DecidableEq, Repr

end Sys2Proof
end

