-- ==== Sys2Proof/WellFormed.lean ====
section
/-! DEFINITION. What is well formed. A value of `Instr` always is: its operands are bytes by type (30_encoding
R53). What can be ill formed is a command WORD (R54, R55: the match and mask table) and a line of assembly
SOURCE (R60 to R63: an operand is a byte, 0 to 255). Each has its check here. -/

namespace Sys2Proof

/-- One row of the opcode map R54: a word selects the row when `word &&& mask = pattern`. -/
structure CmdRow where
  mnemonic : String
  pattern : CmdWord
  mask : CmdWord
  deriving DecidableEq, Repr

/-- The opcode map, column for column (R54). -/
def cmdTable : List CmdRow :=
  [⟨"KEYCLR", 0x01000000#32, 0xFFFFFFFF#32⟩,
   ⟨"KEYPUSH", 0x02000000#32, 0xFFFFFF00#32⟩,
   ⟨"NEW", 0x03000000#32, 0xFFFF0000#32⟩,
   ⟨"APPEND", 0x04000000#32, 0xFFFFFF00#32⟩,
   ⟨"RESET", 0x05000000#32, 0xFFFFFFFF#32⟩,
   ⟨"FINALIZE", 0x06000000#32, 0xFFFFFFFF#32⟩]

/-- "A word selects a command when `(W & mask) = match`" (R54). -/
def CmdRow.selects (r : CmdRow) (w : CmdWord) : Bool := (w &&& r.mask) == r.pattern

/-- The mnemonics of the rows that `w` selects. -/
def selectedBy (w : CmdWord) : List String :=
  (cmdTable.filter fun r => r.selects w).map CmdRow.mnemonic

/-- A legal word is one that some row selects; every other word is illegal (R55). -/
def legalWord (w : CmdWord) : Bool := cmdTable.any fun r => r.selects w

/-- A line of assembly source with its operands as written, before they are known to be bytes
(R60 the six commands, R61 to R63 the pseudo-instructions). -/
inductive SourceLine where
  | keyclr
  | keypush (b : Nat)
  | new (c d : Nat)
  | append (b : Nat)
  | reset
  | finalize
  | new13
  | new24
  | key (bs : List Nat)
  | keyzero
  | appends (bs : List Nat)
  deriving DecidableEq, Repr

/-- "An operand is a byte written in decimal (`0..255`)" or in hexadecimal (R60). -/
def isByte (n : Nat) : Bool := decide (n < 256)

/-- A well-formed source line: every operand is a byte (R60). -/
def SourceLine.wf : SourceLine → Bool
  | .keypush b => isByte b
  | .new c d => isByte c && isByte d
  | .append b => isByte b
  | .key bs => bs.all isByte
  | .appends bs => bs.all isByte
  | .keyclr | .reset | .finalize | .new13 | .new24 | .keyzero => true

end Sys2Proof
end

