-- ==== Sys2Proof/Decode.lean ====
section
/-! DEFINITION. Command words to commands and back (spec 30_encoding R52 to R55, R58, R59).
A command word is a 32-bit value on the port, not a row of bytes in a memory (R48), so it has no byte order. -/

namespace Sys2Proof

/-- `opc = W[31:24]` (R52). -/
def opcOf (w : CmdWord) : Byte := w.extractLsb' 24 8

/-- `rsv = W[23:16]` (R52). -/
def rsvOf (w : CmdWord) : Byte := w.extractLsb' 16 8

/-- `imm1 = W[15:8]` (R52, R53). -/
def imm1Of (w : CmdWord) : Byte := w.extractLsb' 8 8

/-- `imm0 = W[7:0]` (R52, R53). -/
def imm0Of (w : CmdWord) : Byte := w.extractLsb' 0 8

/-- Why a word is illegal; each is the spec's `Illegal`, told apart here by name (R55). -/
inductive DecodeError where
  /-- `rsv != 0`. -/
  | reservedFieldSet
  /-- `opc = 0x00` or `opc` in `0x07..0xFF`. -/
  | unassignedOpcode
  /-- `imm1` or `imm0` not zero in a command that does not use it. -/
  | unusedOperandSet
  deriving DecidableEq, Repr

/-- `decode` of R58, test for test; it reads no state. -/
def decode (w : CmdWord) : Except DecodeError Instr :=
  if rsvOf w ≠ 0 then .error .reservedFieldSet
  else if opcOf w = 0x01#8 then
    if imm1Of w = 0 ∧ imm0Of w = 0 then .ok .keyclr else .error .unusedOperandSet
  else if opcOf w = 0x02#8 then
    if imm1Of w = 0 then .ok (.keypush (imm0Of w)) else .error .unusedOperandSet
  else if opcOf w = 0x03#8 then .ok (.new (imm1Of w) (imm0Of w))
  else if opcOf w = 0x04#8 then
    if imm1Of w = 0 then .ok (.append (imm0Of w)) else .error .unusedOperandSet
  else if opcOf w = 0x05#8 then
    if imm1Of w = 0 ∧ imm0Of w = 0 then .ok .reset else .error .unusedOperandSet
  else if opcOf w = 0x06#8 then
    if imm1Of w = 0 ∧ imm0Of w = 0 then .ok .finalize else .error .unusedOperandSet
  else .error .unassignedOpcode

/-- `W = opc ∥ rsv ∥ imm1 ∥ imm0` with `rsv = 0x00` (R52). -/
def packWord (opc imm1 imm0 : Byte) : CmdWord := opc ++ 0x00#8 ++ imm1 ++ imm0

/-- The word of a command (R54): the inverse of `decode` on the legal words (R58). -/
def encode : Instr → CmdWord
  | .keyclr => packWord 0x01#8 0 0
  | .keypush b => packWord 0x02#8 0 b
  | .new c d => packWord 0x03#8 c d
  | .append b => packWord 0x04#8 0 b
  | .reset => packWord 0x05#8 0 0
  | .finalize => packWord 0x06#8 0 0

/-- The command word whose low `nbits` bits are those of `w` and whose other bits are 0, numbered as
spec/opcode_table.json numbers them (bit 0 least significant). -/
def tableWord (nbits w : Nat) : CmdWord := BitVec.ofNat 32 (w % 2 ^ nbits)

/-- What the decoder reads from a table row's word; `none` where it refuses. -/
def decodeTableWord (nbits w : Nat) : Option Instr :=
  match decode (tableWord nbits w) with
  | .ok i => some i
  | .error _ => none

end Sys2Proof
end

