-- ==== Sys2Proof/Machine/State.lean ====
section
/-! DEFINITION. The state of the machine as plain data: everything 10_state R10 lists, the open parameter
`BUF_CAP`, and the host's two ends of the ports (30_encoding R50). The value after hardware reset (R24, R150). -/

namespace Sys2Proof.Machine

/-- The phases of the `FINALIZE` sequencer (R19). -/
inductive Phase where
  | idle | init | blocks | trail | final
  deriving DecidableEq, Repr

/-- The four working registers `V[0..3]` (R11). -/
structure VRegs where
  v0 : Word
  v1 : Word
  v2 : Word
  v3 : Word
  deriving DecidableEq, Repr

/-- The five errors a command can end with (60_exceptions R130); their numbers are `ErrorCode.code`. -/
inductive ErrorCode where
  /-- `NEW`: the staged key is not exactly 16 bytes (R131). -/
  | invalidKeyLength
  /-- `NEW`: a round count is 0 (R132). -/
  | invalidRoundCount
  /-- `APPEND`, `RESET`, `FINALIZE`: there is no instance (R133). -/
  | notConstructed
  /-- `APPEND`: the buffer holds `BUF_CAP` bytes (R134). -/
  | bufferFull
  /-- The word is not a legal command word (R135). -/
  | illegalCommand
  deriving DecidableEq, Repr

/-- What the response port delivers for one command: `rsp_code` and `rsp_data` (R50, R56). -/
structure Response where
  code : RspCode
  data : Word
  deriving DecidableEq, Repr

/-- What the host does next at the ports (R50, 70_reset R157): it presents a command word, or it asserts
the hardware reset input. -/
inductive PortEvent where
  | command (w : CmdWord)
  | hreset
  deriving DecidableEq, Repr

/-- The bytes of `BUF` that hold a value, as address and byte, addresses strictly rising. An address that is not
listed holds NO value (R24, R26): `Memory.read` answers `none` there (log 2, safe). -/
abbrev Memory := List Host.Cell

/-- The state (R10). The last three fields are the model's own: `bufCap` is the parameter `BUF_CAP` (R23), which
nothing writes; `inbox` is what the host has still to present; `responses` is what it has been answered. -/
structure State where
  /-- `KS[0..15]`, the key staging (R13). -/
  ks : Vector Byte 16
  /-- `KEYCNT`, 0 to 17 (R13, R17). -/
  keyCnt : Nat
  /-- `CONFIGURED` (R15). -/
  configured : Bool
  /-- `K[0]` (R12). -/
  k0 : Word
  /-- `K[1]` (R12). -/
  k1 : Word
  /-- `CR`, compression rounds (R16). -/
  cr : Byte
  /-- `FR`, finalization rounds (R16). -/
  fr : Byte
  /-- `BUF`, the input buffer (R20, 20_memory R30). -/
  buf : Memory
  /-- `BUFLEN`, the number of valid bytes in `BUF` (R17, R20). -/
  bufLen : Nat
  /-- `V[0..3]` (R11). -/
  v : VRegs
  /-- `PHASE` (R19). -/
  phase : Phase
  /-- `J`, the block index (R19). -/
  j : Nat
  /-- `T`, the round counter (R19). -/
  t : Nat
  /-- `BUF_CAP`: `none` is unbounded (20_memory R43; log 4). -/
  bufCap : Option Nat
  /-- What the host presents next, first first (30_encoding R50; log 3). -/
  inbox : List PortEvent
  /-- Every response so far, oldest first (30_encoding R51, R56; 70_reset R158; log 3). -/
  responses : List Response
  deriving DecidableEq, Repr

/-- Why the machine stops. No run from reset reaches any of these (Safety.lean's invariant rules them out), and
stopping there is safe: nothing is claimed of what the hardware would do. -/
inductive Fault where
  /-- `FINALIZE` reads a buffer byte below `BUFLEN` that holds no value (R26 lets a model fault there). Safe. -/
  | noByte
  /-- A buffer address that does not exist is touched: `APPEND` above `BUF_CAP`, or a read not below `BUFLEN`
  (R6 `MemRead`, R30). Safe. -/
  | outsideBuffer
  deriving DecidableEq, Repr

/-- Why an instruction has no meaning. Every command has one, so nothing raises this. -/
inductive Refusal where
  /-- An arm of `exec` not modelled yet: no arm is. Safe. -/
  | notModelled (mnemonic : String)
  deriving DecidableEq, Repr

/-- The state after hardware reset of a machine whose buffer capacity is `cap` (R24, R150). `CONFIGURED`,
`KEYCNT`, `BUFLEN` and `PHASE` are the spec's values; `BUF` lists nothing; the zeros of `KS`, `K`, `CR`, `FR`,
`V`, `J` and `T` are a DESIGN CHOICE (log 1: the spec gives them no value), unsafe. -/
def State.resetWith (cap : Option Nat) : State where
  ks := Vector.replicate 16 0
  keyCnt := 0
  configured := false
  k0 := 0
  k1 := 0
  cr := 0
  fr := 0
  buf := []
  bufLen := 0
  v := ⟨0, 0, 0, 0⟩
  phase := .idle
  j := 0
  t := 0
  bufCap := cap
  inbox := []
  responses := []

/-- The machine right after reset, nothing presented and nothing answered (R24, R150; capacity: log 4). -/
def State.reset : State := State.resetWith Config.defaultBufCap

end Sys2Proof.Machine
end

