-- ==== Sys2Proof/Machine/Operands.lean ====
section
/-! DEFINITION. How bytes become words and words become bytes, and how an operand byte becomes a count
(spec 00_scope R9; 20_memory R34 to R39; 30_encoding R53; 40_key R73). -/

namespace Sys2Proof.Machine

/-- Byte `i` of a list as a 64-bit word, `zext_64` (R6). The lists in use are long enough for every `i` asked for. -/
def byteAt (b : List Byte) (i : Nat) : Word := (b.getD i 0).setWidth 64

/-- `le64` of 8 bytes: least significant byte first (R9). -/
def le64 (b : List Byte) : Word :=
  byteAt b 0 ||| byteAt b 1 <<< 8 ||| byteAt b 2 <<< 16 ||| byteAt b 3 <<< 24 |||
    byteAt b 4 <<< 32 ||| byteAt b 5 <<< 40 ||| byteAt b 6 <<< 48 ||| byteAt b 7 <<< 56

/-- `be64` of 8 bytes: most significant byte first (R9). -/
def be64 (b : List Byte) : Word :=
  byteAt b 0 <<< 56 ||| byteAt b 1 <<< 48 ||| byteAt b 2 <<< 40 ||| byteAt b 3 <<< 32 |||
    byteAt b 4 <<< 24 ||| byteAt b 5 <<< 16 ||| byteAt b 6 <<< 8 ||| byteAt b 7

/-- `bytes_be(h)`: the 8 bytes of a word, most significant first (R9). -/
def bytesBe (h : Word) : List Byte :=
  [h.extractLsb' 56 8, h.extractLsb' 48 8, h.extractLsb' 40 8, h.extractLsb' 32 8,
   h.extractLsb' 24 8, h.extractLsb' 16 8, h.extractLsb' 8 8, h.extractLsb' 0 8]

/-- `KeyHalves(key)`: bytes 0 to 7 and bytes 8 to 15, each little-endian (R73, R34). -/
def keyHalves (key : Vector Byte 16) : Word × Word :=
  (le64 (key.toList.take 8), le64 (key.toList.drop 8))

/-- A round-count operand as the number it stands for: an integer 0 to 255, as it stands (R53). -/
def roundCount (c : Byte) : Nat := c.toNat

/-- The digest bytes `D[0..7]` of a response (R36, R117). -/
def Response.digestBytes (r : Response) : List Byte := bytesBe r.data

end Sys2Proof.Machine
end

