-- ==== Sys2Proof/Machine/Flags.lean ====
section
/-! DEFINITION. The status tests. The hardware has no arithmetic flag (10_state R18); its status fields are
`CONFIGURED` and `KEYCNT`. Each test answers the error a command raises, in the order of 60_exceptions R138. -/

namespace Sys2Proof.Machine

/-- The checks of `NEW`: key length first, then round counts (R72, R131, R132, R138). -/
def newError (keyCnt : Nat) (c d : Byte) : Option ErrorCode :=
  if keyCnt ≠ 16 then some .invalidKeyLength
  else if roundCount c = 0 ∨ roundCount d = 0 then some .invalidRoundCount
  else none

/-- The check of every command that needs an instance (R133). -/
def instanceError (s : State) : Option ErrorCode :=
  if s.configured then none else some .notConstructed

/-- The checks of `APPEND`: an instance first, then room (R80, R134, R138). -/
def appendError (s : State) : Option ErrorCode :=
  match instanceError s with
  | some e => some e
  | none => if s.bufCap = some s.bufLen then some .bufferFull else none

/-- Buffer address `a` exists: `BUF[0..BUF_CAP-1]` is present (20_memory R30, R43). -/
def bufHas (cap : Option Nat) (a : Nat) : Bool :=
  match cap with
  | none => true
  | some c => decide (a < c)

/-- `cmd_ready`: no `FINALIZE` is in progress (30_encoding R51, 10_state R19). -/
def cmdReady (s : State) : Bool := decide (s.phase = .idle)

end Sys2Proof.Machine
end

