-- ==== Sys2Proof/Machine/Ops.lean ====
section
/-! DEFINITION. The named operations on the state: the buffer's bytes, the key staging, the instance, the
sequencer's registers, the response port, raising an error, hardware reset, and taking the next port event. -/

namespace Sys2Proof.Machine

/-! ## The buffer's bytes (20_memory R30 to R33) -/

/-- The byte at an address, `none` where no value is held (10_state R24, R26). -/
def Memory.read : Memory → Nat → Option Byte
  | [], _ => none
  | (x, b) :: m, a => if x = a then some b else Memory.read m a

/-- Write one byte, keeping the addresses strictly rising. -/
def Memory.write : Memory → Nat → Byte → Memory
  | [], a, b => [(a, b)]
  | (x, y) :: m, a, b =>
    if x < a then (x, y) :: Memory.write m a b
    else if x = a then (a, b) :: m
    else (a, b) :: (x, y) :: m

/-- The canonical form: addresses strictly rising. (An unlisted address holds no value, so no entry can equal it.) -/
def Memory.wf (m : Memory) : Bool := decide (m.Pairwise fun x y => x.1 < y.1)

/-- The `n` bytes from `a` up, or the fault of the first that holds no value. -/
def readBytes (m : Memory) (a : Nat) : Nat → Except Fault (List Byte)
  | 0 => .ok []
  | n + 1 =>
    match m.read a with
    | none => .error .noByte
    | some b =>
      match readBytes m (a + 1) n with
      | .error f => .error f
      | .ok bs => .ok (b :: bs)

/-- `MemRead(BUF, a, n)`, "defined only when `a + n <= BUFLEN`" (R6); it changes nothing. -/
def memRead (s : State) (a n : Nat) : Except Fault (List Byte) :=
  if a + n ≤ s.bufLen then readBytes s.buf a n else .error .outsideBuffer

/-! ## Updates of named fields -/

/-- `KEYCNT <- n`. -/
def State.setKeyCnt (n : Nat) (s : State) : State := { s with keyCnt := n }

/-- `KS[i] <- b`, for a staging index that exists (R13). -/
def State.stageByte (i : Nat) (h : i < 16) (b : Byte) (s : State) : State := { s with ks := s.ks.set i b h }

/-- `CONFIGURED <- 0; BUFLEN <- 0`: the instance is gone (R72, R139). -/
def State.dropInstance (s : State) : State := { s with configured := false, bufLen := 0 }

/-- What a valid `NEW` writes: the key halves, the rounds, an empty buffer, `CONFIGURED <- 1` (R72). -/
def State.install (k : Word × Word) (c d : Byte) (s : State) : State :=
  { s with k0 := k.1, k1 := k.2, cr := c, fr := d, bufLen := 0, configured := true }

/-- `MemWrite(BUF, BUFLEN, 1, b); BUFLEN <- BUFLEN + 1` (20_memory R32). -/
def State.storeByte (b : Byte) (s : State) : State :=
  { s with buf := s.buf.write s.bufLen b, bufLen := s.bufLen + 1 }

/-- `BUFLEN <- 0`; the old bytes stay, unreachable (10_state R20, R27; log 6). -/
def State.clearBuf (s : State) : State := { s with bufLen := 0 }

/-- `V[0..3] <- v`. -/
def State.setV (v : VRegs) (s : State) : State := { s with v := v }

/-- `PHASE <- p`. -/
def State.setPhase (p : Phase) (s : State) : State := { s with phase := p }

/-- `J <- n`. -/
def State.setJ (n : Nat) (s : State) : State := { s with j := n }

/-- `T <- n`. -/
def State.setT (n : Nat) (s : State) : State := { s with t := n }

/-- What the host has still to present. -/
def State.setInbox (q : List PortEvent) (s : State) : State := { s with inbox := q }

/-! ## Responses and errors (30_encoding R51, R56; 60_exceptions R130, R139) -/

/-- `respond(code, data)`: the command's one response (R6, R51). -/
def State.respond (code : RspCode) (data : Word) (s : State) : State :=
  { s with responses := s.responses ++ [⟨code, data⟩] }

/-- The response `(0, 0)` of a command that completes without a digest (R56). -/
def State.respondOk (s : State) : State := s.respond 0 0

/-- The code of an error (R130). -/
def ErrorCode.code : ErrorCode → RspCode
  | .invalidKeyLength => 1
  | .invalidRoundCount => 2
  | .notConstructed => 3
  | .bufferFull => 4
  | .illegalCommand => 5

/-- What an error does to the state besides its response: the two `NEW` errors zero `KEYCNT`, `CONFIGURED` and
`BUFLEN`; the other three change nothing (R139 (b)). -/
def ErrorCode.effect (e : ErrorCode) (s : State) : State :=
  match e with
  | .invalidKeyLength | .invalidRoundCount => (s.setKeyCnt 0).dropInstance
  | .notConstructed | .bufferFull | .illegalCommand => s

/-- `raise E`, taking an exception: the error's own state changes and the response `(code(E), 0)`. Nothing is
saved, nothing is vectored, no mode changes, and the hardware is at once ready for the next command (R139), so there
is no return from an exception to model (R140). -/
def takeException (e : ErrorCode) (s : State) : State := (e.effect s).respond e.code 0

/-! ## Hardware reset and the command port (70_reset R150; 30_encoding R50, R51) -/

/-- `hreset`: the reset state, whatever the machine was doing; no response. The capacity and the host's own ends of
the ports are not the reset's to change. -/
def hardwareReset (s : State) : State :=
  { State.resetWith s.bufCap with inbox := s.inbox, responses := s.responses }

/-- What one step finds at the ports. -/
inductive Arrival where
  /-- Nothing is presented and nothing is in progress: the hardware does nothing (R150). -/
  | nothing
  /-- The hardware reset was asserted; the state after it. -/
  | wasReset (s : State)
  /-- `cmd_ready` is 0: a `FINALIZE` is in progress and runs on, and a presented word waits (R51). -/
  | inProgress
  /-- An illegal word was accepted (R55); the state after its error. -/
  | illegal (s : State)
  /-- A command was accepted; the state it runs from. -/
  | accepted (i : Instr) (s : State)

/-- Take the next port event: the hardware reset at any time (R150), a command word only when `cmd_ready` is 1; until
then it stays presented (R51). Decode comes before any state is read (R138). -/
def takeEvent (s : State) : Arrival :=
  match s.inbox with
  | [] => if cmdReady s then .nothing else .inProgress
  | .hreset :: rest => .wasReset (hardwareReset (s.setInbox rest))
  | .command w :: rest =>
    if cmdReady s then
      match decode w with
      | .ok i => .accepted i (s.setInbox rest)
      | .error _ => .illegal (takeException .illegalCommand (s.setInbox rest))
    else .inProgress

/-- Present the word `w` at the command port, ahead of whatever the host had to say, with the port ready. -/
def presentWord (w : CmdWord) (s : State) : State :=
  (s.setInbox (.command w :: s.inbox)).setPhase .idle

end Sys2Proof.Machine
end

