-- ==== Sys2Proof/Machine/Buffer.lean ====
section
/-! DEFINITION. The buffer commands: `APPEND` and `RESET` (spec 41_buffer_commands). Neither computes anything (R84). -/

namespace Sys2Proof.Machine

/-- `APPEND b` (R80). The fault is for a `BUFLEN` above `BUF_CAP`, which no run reaches (log 5). -/
def execAppend (b : Byte) (s : State) : Host.Outcome State Fault Refusal :=
  match appendError s with
  | some e => .next (takeException e s)
  | none => if bufHas s.bufCap s.bufLen then .next (s.storeByte b).respondOk else .fault .outsideBuffer

/-- `RESET` (R82). -/
def execReset (s : State) : Host.Outcome State Fault Refusal :=
  match instanceError s with
  | some e => .next (takeException e s)
  | none => .next s.clearBuf.respondOk

end Sys2Proof.Machine
end

