-- ==== Sys2Proof/Machine/Engine.lean ====
section
/-! DEFINITION. The engine's primitives as functions on 64-bit words (spec 00_scope R7, R8; 10_state R14;
42_engine_primitives R90 to R95; 43_finalize R111, R114, R116). None sets a flag or raises anything (R136). -/

namespace Sys2Proof.Machine

/-- `add64(a, b) = (a + b) mod 2^64`; the carry is dropped (R7, R90). -/
def add64 (a b : Word) : Word := a + b

/-- `rotl64(n, by)`, circular left rotation, for `by` in 1..63; used with 13, 16, 17, 21 and 32 only (R8, R91).
Outside 1..63 the same formula stands (93 U6; log 8). -/
def rotl64 (n : Word) (by_ : Nat) : Word := (n <<< by_) ||| (n >>> (64 - by_))

/-- `C[0]`, "somepseu" (R14). -/
def initC0 : Word := 0x736f6d6570736575#64
/-- `C[1]`, "dorandom" (R14). -/
def initC1 : Word := 0x646f72616e646f6d#64
/-- `C[2]`, "lygenera" (R14). -/
def initC2 : Word := 0x6c7967656e657261#64
/-- `C[3]`, "tedbytes" (R14). -/
def initC3 : Word := 0x7465646279746573#64

/-- `Init`: the key halves XORed with the constants, `C[i]` with `V[i]` (R111). -/
def initV (k0 k1 : Word) : VRegs := ⟨k0 ^^^ initC0, k1 ^^^ initC1, k0 ^^^ initC2, k1 ^^^ initC3⟩

/-- `SipRound`: the fourteen assignments in their order, each seeing all earlier ones (R92). -/
def sipRound (v : VRegs) : VRegs :=
  let v0 := v.v0
  let v1 := v.v1
  let v2 := v.v2
  let v3 := v.v3
  -- step 1
  let v0 := add64 v0 v1
  let v1 := rotl64 v1 13
  let v1 := v1 ^^^ v0
  let v0 := rotl64 v0 32
  -- step 2
  let v2 := add64 v2 v3
  let v3 := rotl64 v3 16
  let v3 := v3 ^^^ v2
  -- step 3
  let v0 := add64 v0 v3
  let v3 := rotl64 v3 21
  let v3 := v3 ^^^ v0
  -- step 4
  let v2 := add64 v2 v1
  let v1 := rotl64 v1 17
  let v1 := v1 ^^^ v2
  let v2 := rotl64 v2 32
  ⟨v0, v1, v2, v3⟩

/-- `SipRounds(n, v)`: `n` rounds in a row (R93). -/
def sipRounds : Nat → VRegs → VRegs
  | 0, v => v
  | n + 1, v => sipRounds n (sipRound v)

/-- `V[3] <- V[3] ^ m` (R94). -/
def mixIn (m : Word) (v : VRegs) : VRegs := { v with v3 := v.v3 ^^^ m }

/-- `V[0] <- V[0] ^ m` (R94). -/
def mixOut (m : Word) (v : VRegs) : VRegs := { v with v0 := v.v0 ^^^ m }

/-- `CompressWord_c(m, v)`, as a function (R94). -/
def compressWord (c : Nat) (m : Word) (v : VRegs) : VRegs := mixOut m (sipRounds c (mixIn m v))

/-- The trailing word of a buffer of length `n` whose `n mod 8` leftover bytes are `tail`: the length byte on top,
then each of the seven positions tested in turn (R114). -/
def trailPlace (n : Nat) (tail : List Byte) : Word :=
  [0, 1, 2, 3, 4, 5, 6].foldl
    (fun w i => if n % 8 > i then w ||| byteAt tail i <<< (8 * i) else w)
    (BitVec.ofNat 64 (n % 256) <<< 56)

/-- `V[2] <- V[2] ^ 0x00000000000000FF` (R116). -/
def finalMix (v : VRegs) : VRegs := { v with v2 := v.v2 ^^^ 0x00000000000000FF#64 }

/-- `h = V[0] ^ V[1] ^ V[2] ^ V[3]` (R116). -/
def digestWord (v : VRegs) : Word := v.v0 ^^^ v.v1 ^^^ v.v2 ^^^ v.v3

end Sys2Proof.Machine
end

