-- ==== Sys2Proof/Machine/Finalize.lean ====
section
/-! DEFINITION. `FINALIZE` as the sequencer runs it (spec 43_finalize R110 to R117): the phases in their fixed order
(R119), each writing `PHASE`, `J`, `T` and `V` as the pseudocode says. The function it computes is `sipHash`. -/

namespace Sys2Proof.Machine

/-- One count of the round counter: one `SipRound` (R93). -/
def roundStep (s : State) : State := (s.setV (sipRound s.v)).setT (s.t + 1)

/-- `n` counts of the round counter. -/
def countRounds : Nat → State → State
  | 0, s => s
  | n + 1, s => countRounds n (roundStep s)

/-- `for T = 1 .. n: SipRound`, the counter starting from 0 (R93, R94, R116; the count left in `T`: log 7). -/
def runRounds (n : Nat) (s : State) : State := countRounds n (s.setT 0)

/-- `CompressWord(m)` on the registers (R94). -/
def seqCompress (m : Word) (s : State) : State :=
  let s := s.setV (mixIn m s.v)
  let s := runRounds (roundCount s.cr) s
  s.setV (mixOut m s.v)

/-- `BlockWord(j) = le64(MemRead(BUF, 8*j, 8))` (R112). -/
def blockWord (s : State) (j : Nat) : Except Fault Word :=
  match memRead s (8 * j) 8 with
  | .error f => .error f
  | .ok bs => .ok (le64 bs)

/-- `TrailWord()` (R114). -/
def trailWord (s : State) : Except Fault Word :=
  match memRead s (s.bufLen - s.bufLen % 8) (s.bufLen % 8) with
  | .error f => .error f
  | .ok bs => .ok (trailPlace s.bufLen bs)

/-- The next `k` blocks from block `J` on, `J` counting up (R113). -/
def runBlocks : Nat → State → Except Fault State
  | 0, s => .ok s
  | k + 1, s =>
    match blockWord s s.j with
    | .error f => .error f
    | .ok m => runBlocks k ((seqCompress m s).setJ (s.j + 1))

/-- `PHASE <- INIT; Init` (R111). -/
def initPhase (s : State) : State := (s.setPhase .init).setV (initV s.k0 s.k1)

/-- `PHASE <- BLOCKS; for J = 0 .. (BUFLEN div 8) - 1: CompressWord(BlockWord(J))` (R113). -/
def blocksPhase (s : State) : Except Fault State := runBlocks (s.bufLen / 8) ((s.setPhase .blocks).setJ 0)

/-- `PHASE <- TRAIL; CompressWord(TrailWord())`, exactly once for every length (R115). -/
def trailPhase (s : State) : Except Fault State :=
  match trailWord s with
  | .error f => .error f
  | .ok w => .ok (seqCompress w (s.setPhase .trail))

/-- `PHASE <- FINAL; V[2] <- V[2] ^ 0xFF; for T = 1 .. FR: SipRound` (R116). -/
def finalPhase (s : State) : State :=
  let s := s.setPhase .final
  runRounds (roundCount s.fr) (s.setV (finalMix s.v))

/-- The four phases in their order, up to `PHASE <- IDLE` (R110, R119). -/
def runPhases (s : State) : Except Fault State :=
  match blocksPhase (initPhase s) with
  | .error f => .error f
  | .ok s =>
    match trailPhase s with
    | .error f => .error f
    | .ok s => .ok ((finalPhase s).setPhase .idle)

/-! ## The sequencer one count at a time: how a `FINALIZE` in progress runs on (R19, R93; log 11) -/

/-- One count of `for T = 1 .. n: SipRound`, the first preceded by what its phase does to `V` before its rounds (R93). -/
def countStep (before : VRegs → VRegs) (s : State) : State :=
  roundStep (if s.t = 0 then s.setV (before s.v) else s)

/-- `CompressWord(m)` one count on: a round while `T` is below `CR`, then the closing XOR and what comes `after` (R94). -/
def wordStep (m : Word) (after : State → State) (s : State) : State :=
  if s.t < roundCount s.cr then countStep (mixIn m) s else after ((s.setV (mixOut m s.v)).setT 0)

/-- `BLOCKS` one count on; after the last block, `TRAIL` (R113). The block index moves when its word is folded in. -/
def blocksStep (s : State) : Except Fault State :=
  if s.j < s.bufLen / 8 then
    match blockWord s s.j with
    | .error f => .error f
    | .ok m => .ok (wordStep m (State.setJ (s.j + 1)) s)
  else .ok ((s.setPhase .trail).setT 0)

/-- `TRAIL` one count on; after its word, `FINAL` (R115). -/
def trailStep (s : State) : Except Fault State :=
  match trailWord s with
  | .error f => .error f
  | .ok w => .ok (wordStep w (State.setPhase .final) s)

/-- `FINAL` one count on; after its rounds, `IDLE` and the response `(0, h)` (R116, R117). -/
def finalStep (s : State) : State :=
  if s.t < roundCount s.fr then countStep finalMix s else (s.setPhase .idle).respond 0 (digestWord s.v)

/-- One count of the sequencer, which advances only forward (R19, R119). -/
def sequencerStep (s : State) : Except Fault State :=
  match s.phase with
  | .idle => .ok s
  | .init => .ok ((((initPhase s).setPhase .blocks).setJ 0).setT 0)
  | .blocks => blocksStep s
  | .trail => trailStep s
  | .final => .ok (finalStep s)

/-- What a machine with a `FINALIZE` in progress does next: it goes on with it (R51 "runs to completion in one call"). -/
def continueFinalize (s : State) : Host.Outcome State Fault Refusal :=
  match sequencerStep s with
  | .error f => .fault f
  | .ok s' => .next s'

/-- `FINALIZE` (R110, R117): the response is `(0, h)`. A fault is a buffer byte with no value, which no run
reaches (R26, log 2). -/
def execFinalize (s : State) : Host.Outcome State Fault Refusal :=
  match instanceError s with
  | some e => .next (takeException e s)
  | none =>
    match runPhases s with
    | .error f => .fault f
    | .ok s => .next (s.respond 0 (digestWord s.v))

end Sys2Proof.Machine
end

