-- ==== Sys2Proof/Machine/Key.lean ====
section
/-! DEFINITION. Key loading and construction: `KEYCLR`, `KEYPUSH`, `NEW` (spec 40_key_and_construction). -/

namespace Sys2Proof.Machine

/-- `KEYCLR` (R70). -/
def execKeyclr (s : State) : Host.Outcome State Fault Refusal :=
  .next (s.setKeyCnt 0).respondOk

/-- Push one byte onto the staging: stored while there is room, else dropped and the count stays at 17 (R71). -/
def pushKeyByte (b : Byte) (s : State) : State :=
  if h : s.keyCnt < 16 then (s.stageByte s.keyCnt h b).setKeyCnt (s.keyCnt + 1) else s.setKeyCnt 17

/-- `KEYPUSH b` (R71). -/
def execKeypush (b : Byte) (s : State) : Host.Outcome State Fault Refusal :=
  .next (pushKeyByte b s).respondOk

/-- `NEW c, d` (R72): the staging is consumed whatever the outcome. -/
def execNew (c d : Byte) (s : State) : Host.Outcome State Fault Refusal :=
  match newError s.keyCnt c d with
  | some e => .next (takeException e (s.setKeyCnt 0))
  | none => .next ((s.setKeyCnt 0).install (keyHalves s.ks) c d).respondOk

end Sys2Proof.Machine
end

