-- ==== Sys2Proof/Machine/Dispatch.lean ====
section
/-! DEFINITION. One arm per command of 30_encoding R54. -/

namespace Sys2Proof.Machine

def exec (i : Instr) (s : State) : Host.Outcome State Fault Refusal :=
  match i with
  | .keyclr => Sys2Proof.Machine.execKeyclr s
  | .keypush b => Sys2Proof.Machine.execKeypush b s
  | .new c d => Sys2Proof.Machine.execNew c d s
  | .append b => Sys2Proof.Machine.execAppend b s
  | .reset => Sys2Proof.Machine.execReset s
  | .finalize => Sys2Proof.Machine.execFinalize s

end Sys2Proof.Machine
end

