-- ==== Sys2Proof/Machine/Step.lean ====
section
/-! DEFINITION. One step of the machine: the next port event, whole (spec 30_encoding R51). A command is one step,
whatever it does inside. From a state in the middle of a `FINALIZE`, a step is one count of the sequencer (log 11). -/

namespace Sys2Proof.Machine

/-- One step: nothing presented, nothing done; a hardware reset; a `FINALIZE` in progress carried on; an illegal word
answered with its error; or the accepted command executed from the state in which its word has left the port. -/
def step (s : State) : Host.Outcome State Fault Refusal :=
  match takeEvent s with
  | .nothing => .next s
  | .wasReset s' => .next s'
  | .inProgress => continueFinalize s
  | .illegal s' => .next s'
  | .accepted i s' => exec i s'

/-- `s` with the word of a table row presented at the command port, so that the very next step runs it. -/
def State.withFetchWord (s : State) (nbits w : Nat) : State := presentWord (tableWord nbits w) s

end Sys2Proof.Machine
end

