-- ==== Sys2Proof/Machine/Assembler.lean ====
section
/-! DEFINITION. Assembly text and pseudo-instructions (spec 30_encoding R60 to R63). They have no hardware meaning
(92 D17): a line stands for a list of commands. -/

namespace Sys2Proof.Machine

/-! ## What a source line stands for -/

/-- An operand byte; the line has been checked by `SourceLine.wf`. -/
def operandByte (n : Nat) : Byte := BitVec.ofNat 8 n

/-- The commands a line expands to: itself (R60), the presets (R61), a key (R62), a chunk (R63). -/
def expandLine : SourceLine → List Instr
  | .keyclr => [.keyclr]
  | .keypush b => [.keypush (operandByte b)]
  | .new c d => [.new (operandByte c) (operandByte d)]
  | .append b => [.append (operandByte b)]
  | .reset => [.reset]
  | .finalize => [.finalize]
  | .new13 => [.new 1 3]
  | .new24 => [.new 2 4]
  | .key bs => .keyclr :: bs.map fun b => .keypush (operandByte b)
  | .keyzero => .keyclr :: List.replicate 16 (.keypush 0)
  | .appends bs => bs.map fun b => .append (operandByte b)

/-! ## Reading a line of text -/

/-- A token of a line. -/
inductive Token where
  | word (cs : List Char)
  | comma
  | quoted (cs : List Char)
  deriving DecidableEq, Repr

/-- The double quote character. -/
def quoteChar : Char := Char.ofNat 34

/-- The word read so far (last character first), if there is one. -/
def endWord (cur : List Char) : List Token := if cur = [] then [] else [.word cur.reverse]

/-- Tokens of a line, `q` saying that a quotation is open: blanks separate, a comma stands alone, `;` starts a
comment (R60). `none` for a quotation that is not closed. Blanks are spaces and tabs (log 9). -/
def tokens : Bool → List Char → List Char → Option (List Token)
  | true, _, [] => none
  | true, cur, c :: cs =>
    if c = quoteChar then (tokens false [] cs).map (.quoted cur.reverse :: ·) else tokens true (c :: cur) cs
  | false, cur, [] => some (endWord cur)
  | false, cur, c :: cs =>
    if c = ';' then some (endWord cur)
    else if c = ' ' ∨ c = '\t' then (tokens false [] cs).map (endWord cur ++ ·)
    else if c = ',' then (tokens false [] cs).map (endWord cur ++ .comma :: ·)
    else if c = quoteChar then (tokens true [] cs).map (endWord cur ++ ·)
    else tokens false (c :: cur) cs

/-- The value of a decimal digit. -/
def decDigit (c : Char) : Option Nat :=
  if 48 ≤ c.toNat ∧ c.toNat ≤ 57 then some (c.toNat - 48) else none

/-- The value of a hexadecimal digit, in either case (log 9). -/
def hexDigit (c : Char) : Option Nat :=
  if 97 ≤ c.toNat ∧ c.toNat ≤ 102 then some (c.toNat - 87)
  else if 65 ≤ c.toNat ∧ c.toNat ≤ 70 then some (c.toNat - 55)
  else decDigit c

/-- The value of decimal digits after the value `n`. -/
def decimalFrom (n : Nat) : List Char → Option Nat
  | [] => some n
  | c :: cs =>
    match decDigit c with
    | none => none
    | some k => decimalFrom (10 * n + k) cs

/-- Two hexadecimal digits. -/
def hexPair : List Char → Option Nat
  | [h, l] =>
    match hexDigit h, hexDigit l with
    | some x, some y => some (16 * x + y)
    | _, _ => none
  | _ => none

/-- An operand: decimal, or `0x` and two hexadecimal digits (R60). Whether it is a byte is `SourceLine.wf`'s to say. -/
def operandOf : List Char → Option Nat
  | [] => none
  | ['0', 'x', h, l] => hexPair [h, l]
  | cs => decimalFrom 0 cs

/-- The bytes of `KEY` and `APPENDS`: hexadecimal pairs separated by blanks (R62, R63). -/
def hexPairs : List Token → Option (List Nat)
  | [] => some []
  | .word cs :: ts =>
    match hexPair cs, hexPairs ts with
    | some b, some bs => some (b :: bs)
    | _, _ => none
  | _ :: _ => none

/-- The ASCII bytes of a text (R63). -/
def asciiBytes : List Char → Option (List Nat)
  | [] => some []
  | c :: cs =>
    match asciiBytes cs with
    | none => none
    | some bs => if c.toNat < 128 then some (c.toNat :: bs) else none

/-- A mnemonic that takes no operand, on a line with nothing after it. -/
def aloneOnLine (l : SourceLine) (ts : List Token) : Option (List SourceLine) := if ts = [] then some [l] else none

/-- The line after a mnemonic that takes one operand. -/
def oneOperand (l : Nat → SourceLine) : List Token → Option (List SourceLine)
  | [.word b] => (operandOf b).map fun b => [l b]
  | _ => none

/-- The line after `NEW`: two operands separated by a comma (R60). -/
def twoOperands (l : Nat → Nat → SourceLine) : List Token → Option (List SourceLine)
  | [.word c, .comma, .word d] =>
    match operandOf c, operandOf d with
    | some c, some d => some [l c d]
    | _, _ => none
  | _ => none

/-- The line after `APPENDS`: hexadecimal pairs, or one quoted text (R63). -/
def chunkOperands : List Token → Option (List SourceLine)
  | [.quoted cs] => (asciiBytes cs).map fun bs => [.appends bs]
  | ts => (hexPairs ts).map fun bs => [.appends bs]

/-- One line as source: nothing for a blank or comment line, one line for a command, `none` for anything else. -/
def sourceOf : List Token → Option (List SourceLine)
  | [] => some []
  | .word m :: ts =>
    if m = ['K', 'E', 'Y', 'C', 'L', 'R'] then aloneOnLine .keyclr ts
    else if m = ['K', 'E', 'Y', 'P', 'U', 'S', 'H'] then oneOperand .keypush ts
    else if m = ['N', 'E', 'W'] then twoOperands .new ts
    else if m = ['A', 'P', 'P', 'E', 'N', 'D'] then oneOperand .append ts
    else if m = ['R', 'E', 'S', 'E', 'T'] then aloneOnLine .reset ts
    else if m = ['F', 'I', 'N', 'A', 'L', 'I', 'Z', 'E'] then aloneOnLine .finalize ts
    else if m = ['N', 'E', 'W', '1', '3'] then aloneOnLine .new13 ts
    else if m = ['N', 'E', 'W', '2', '4'] then aloneOnLine .new24 ts
    else if m = ['K', 'E', 'Y'] then (hexPairs ts).map fun bs => [.key bs]
    else if m = ['K', 'E', 'Y', 'Z', 'E', 'R', 'O'] then aloneOnLine .keyzero ts
    else if m = ['A', 'P', 'P', 'E', 'N', 'D', 'S'] then chunkOperands ts
    else none
  | _ :: _ => none

/-- One line of text to commands: read, checked, expanded. -/
def assembleLine (cs : List Char) : Option (List Instr) :=
  match tokens false [] cs with
  | none => none
  | some ts =>
    match sourceOf ts with
    | none => none
    | some ls => if ls.all SourceLine.wf then some (ls.flatMap expandLine) else none

end Sys2Proof.Machine
end

