-- ==== Sys2Proof/Machine/SipHash.lean ====
section
/-! DEFINITION. The whole as one function of rounds, key and message (spec 43_finalize R118, R122): what a
`FINALIZE` computes, said without the machine. Rounds are any natural numbers (93 U13). -/

namespace Sys2Proof.Machine

/-- `le64(M[8j .. 8j+7])` (R112, R118). -/
def messageWord (M : List Byte) (j : Nat) : Word := le64 ((M.drop (8 * j)).take 8)

/-- `Chain(j)`: the state after the first `j` full blocks (R122). -/
def chain (c : Nat) (k0 k1 : Word) (M : List Byte) : Nat → VRegs
  | 0 => initV k0 k1
  | j + 1 => compressWord c (messageWord M j) (chain c k0 k1 M j)

/-- `TrailWord(M)` (R114). -/
def messageTrail (M : List Byte) : Word := trailPlace M.length (M.drop (8 * (M.length / 8)))

/-- The four final words (R118, before the last XOR). -/
def sipFinal (c d : Nat) (k0 k1 : Word) (M : List Byte) : VRegs :=
  sipRounds d (finalMix (compressWord c (messageTrail M) (chain c k0 k1 M (M.length / 8))))

/-- `SipHash(c, d, key, M)` (R118). -/
def sipHash (c d : Nat) (key : Vector Byte 16) (M : List Byte) : Word :=
  digestWord (sipFinal c d (keyHalves key).1 (keyHalves key).2 M)

end Sys2Proof.Machine
end

