-- ==== Sys2Proof/Safety.lean ====
section
/-! DEFINITION. What counts as a safe state and a safe run, and the vocabulary of statements about runs: the
invariant every step keeps, a list of commands executed one after another, what a host can tell apart. -/

namespace Sys2Proof.Safety

open Sys2Proof.Machine

/-- The invariant of the machine between commands (70_reset R158: `PHASE = IDLE`, nothing in flight). -/
structure Inv (s : State) : Prop where
  /-- The buffer's bytes are in canonical form. -/
  bufCanonical : s.buf.wf = true
  /-- Every byte below `BUFLEN` holds a value (10_state R26). -/
  bufHeld : ∀ a, a < s.bufLen → (s.buf.read a).isSome = true
  /-- No byte is held where the buffer has none (20_memory R30, R43). -/
  bufPresent : ∀ cell, cell ∈ s.buf → ∀ c, s.bufCap = some c → cell.1 < c
  /-- `BUFLEN` in `0..BUF_CAP` (R10, R17). -/
  lenInCap : ∀ c, s.bufCap = some c → s.bufLen ≤ c
  /-- `KEYCNT` in `0..17` (R10, R13). -/
  keyCntBound : s.keyCnt ≤ 17
  /-- `T` in `0..255` (R19). -/
  tBound : s.t ≤ 255
  /-- No `FINALIZE` is in progress between commands (R19). -/
  idle : s.phase = .idle
  /-- `CR` and `FR` in `1..255` when `CONFIGURED = 1` (R10, R16). -/
  roundsLegal : s.configured = true → s.cr ≠ 0 ∧ s.fr ≠ 0
  /-- Codes 6 to 15 are never produced and an error carries no data (30_encoding R56, 60_exceptions R130). -/
  responsesLegal : ∀ r, r ∈ s.responses → r.code.toNat ≤ 5 ∧ (r.code ≠ 0 → r.data = 0)

/-- Commands executed one after another, left to right (20_memory R45), stopping at the first stop. -/
def execAll : List Instr → State → Host.Outcome State Fault Refusal
  | [], s => .next s
  | i :: is, s =>
    match exec i s with
    | .next t => execAll is t
    | .fault f => .fault f
    | .refused r => .refused r

/-- A key pushed byte by byte (40_key R71). -/
def pushes (key : List Byte) : List Instr := key.map .keypush

/-- A chunk: one `APPEND` per byte, in order (41_buffer R80, 30_encoding R63). -/
def appends (chunk : List Byte) : List Instr := chunk.map .append

/-- The most recent response. -/
def lastResponse (s : State) : Option Response := s.responses.getLast?

/-- There is room for `n` bytes in an empty buffer (20_memory R43). -/
def roomFor (s : State) (n : Nat) : Prop := ∀ c, s.bufCap = some c → n ≤ c

/-- The buffer holds exactly the bytes of `M` (10_state R20). -/
def holds (s : State) (M : List Byte) : Prop :=
  s.bufLen = M.length ∧ ∀ a, (h : a < M.length) → s.buf.read a = some M[a]

/-- The instance's key and rounds may still be read: there is an instance, or a `FINALIZE` is in progress. -/
def instanceInUse (s : State) : Prop := s.configured = true ∨ s.phase ≠ .idle

/-- Two states agree wherever a rule may still read before it writes (10_state R26): the fields with a reset value,
the staged bytes, the instance if it is in use, the valid buffer bytes, both port ends, and `V`, `J`, `T` once a
`FINALIZE` in progress has initialised them. Nothing is said of `V`, `J`, `T` otherwise, of staging bytes not pushed, of
`K`, `CR`, `FR` without an instance, or of buffer bytes at or above `BUFLEN`. -/
structure SameToHost (s t : State) : Prop where
  configured : s.configured = t.configured
  keyCnt : s.keyCnt = t.keyCnt
  bufLen : s.bufLen = t.bufLen
  phase : s.phase = t.phase
  bufCap : s.bufCap = t.bufCap
  inbox : s.inbox = t.inbox
  responses : s.responses = t.responses
  staged : ∀ i, (h : i < 16) → i < s.keyCnt → s.ks[i] = t.ks[i]
  key0 : instanceInUse s → s.k0 = t.k0
  key1 : instanceInUse s → s.k1 = t.k1
  rounds0 : instanceInUse s → s.cr = t.cr
  rounds1 : instanceInUse s → s.fr = t.fr
  engine : s.phase ≠ .idle → s.phase ≠ .init → s.v = t.v ∧ s.j = t.j ∧ s.t = t.t
  bytes : ∀ a, a < s.bufLen → s.buf.read a = t.buf.read a

end Sys2Proof.Safety
end

