-- ==== Sys2Proof/Certificates/Slice0/Obligations.lean ====
section
/-! DEFINITION. The statements about the machine, for the provers. Each docstring names the rules of spec/ it rests on.
A statement about every state holds in states no run reaches too, or carries the invariant that rules them out. -/

open Sys2Proof Sys2Proof.Machine Sys2Proof.Safety

/-! ## Encoding (30_encoding) -/

/-- Listed words of 95_test_vectors section 9 decode as listed there, legal and illegal. -/
def Obligations.ListedWordsDecodeAsListed : Prop :=
  decode 0x01000000#32 = .ok .keyclr ∧ decode 0x020000ff#32 = .ok (.keypush 0xff) ∧
  decode 0x03000204#32 = .ok (.new 2 4) ∧ decode 0x03000000#32 = .ok (.new 0 0) ∧
  decode 0x04000061#32 = .ok (.append 0x61) ∧ decode 0x05000000#32 = .ok .reset ∧
  decode 0x06000000#32 = .ok .finalize ∧
  decode 0x00000000#32 = .error .unassignedOpcode ∧ decode 0x07000000#32 = .error .unassignedOpcode ∧
  decode 0x06000001#32 = .error .unusedOperandSet ∧ decode 0x04000161#32 = .error .unusedOperandSet ∧
  decode 0x03010204#32 = .error .reservedFieldSet ∧ decode 0xffffffff#32 = .error .reservedFieldSet

/-- R58, the function: `decode` is the rule's chain of tests on the four fields, taken as numbers. -/
def Obligations.DecodeReadsTheFields : Prop :=
  ∀ w : CmdWord,
    let opc := w.toNat / 2 ^ 24
    let rsv := w.toNat / 2 ^ 16 % 256
    let imm1 := w.toNat / 2 ^ 8 % 256
    let imm0 := w.toNat % 256
    (match decode w with | .ok i => some i | .error _ => none) =
      if rsv ≠ 0 then none
      else if opc = 1 ∧ imm1 = 0 ∧ imm0 = 0 then some .keyclr
      else if opc = 2 ∧ imm1 = 0 then some (.keypush (BitVec.ofNat 8 imm0))
      else if opc = 3 then some (.new (BitVec.ofNat 8 imm1) (BitVec.ofNat 8 imm0))
      else if opc = 4 ∧ imm1 = 0 then some (.append (BitVec.ofNat 8 imm0))
      else if opc = 5 ∧ imm1 = 0 ∧ imm0 = 0 then some .reset
      else if opc = 6 ∧ imm1 = 0 ∧ imm0 = 0 then some .finalize
      else none

/-- R58, the inverse, which the spec marks `[derived: from rule R54]`: decoding the word of any command gives the command
back, with every operand at every value, and a word that decodes is the word of what it decodes to. -/
def Obligations.DecodeAndEncodeAgree : Prop :=
  (∀ i : Instr, decode (encode i) = .ok i) ∧ ∀ (w : CmdWord) (i : Instr), decode w = .ok i → encode i = w

/-- R54: the six match and mask pairs select disjoint sets of words (the spec's own `[derived: the `opc` values differ]`),
and the legal words are 66051. -/
def Obligations.OpcodeMapIsDisjointWith66051Words : Prop :=
  (∀ (w : CmdWord) (r r' : CmdRow), r ∈ cmdTable → r' ∈ cmdTable → r.selects w = true → r'.selects w = true → r = r') ∧
  ∃ l : List CmdWord, l.Nodup ∧ l.length = 66051 ∧ ∀ w : CmdWord, w ∈ l ↔ legalWord w = true

/-- R55: the illegal words are those no row selects, field by field; they are the ones that do not decode. -/
def Obligations.IllegalWordsAreThoseNoRowSelects : Prop :=
  ∀ w : CmdWord,
    let opc := w.toNat / 2 ^ 24
    let rsv := w.toNat / 2 ^ 16 % 256
    let imm1 := w.toNat / 2 ^ 8 % 256
    let imm0 := w.toNat % 256
    ((∃ e, decode w = .error e) ↔ legalWord w = false) ∧
    (legalWord w = false ↔
      opc = 0 ∨ 7 ≤ opc ∨ rsv ≠ 0 ∨ (opc ∈ [1, 2, 4, 5, 6] ∧ imm1 ≠ 0) ∨ (opc ∈ [1, 5, 6] ∧ imm0 ≠ 0))

/-- R61, R62, R63: the words the pseudo-instructions expand to. -/
def Obligations.PseudoInstructionsExpandToTheirWords : Prop :=
  (expandLine .new13).map encode = [0x03000103#32] ∧ (expandLine .new24).map encode = [0x03000204#32] ∧
  (∀ bs : List Nat, (SourceLine.key bs).wf = true →
    (expandLine (.key bs)).map encode = 0x01000000#32 :: bs.map fun b => BitVec.ofNat 32 (0x02000000 + b)) ∧
  expandLine .keyzero = expandLine (.key (List.replicate 16 0)) ∧
  (∀ bs : List Nat, (SourceLine.appends bs).wf = true →
    (expandLine (.appends bs)).map encode = bs.map fun b => BitVec.ofNat 32 (0x04000000 + b))

/-! ## Words and bytes (00_scope R7 to R9; 10_state R14; 20_memory R34 to R38; 42 R90, R91) -/

/-- R7: `add64(a, b) = (a + b) mod 2^64`. -/
def Obligations.AdditionWrapsModulo2To64 : Prop :=
  ∀ a b : Word, (add64 a b).toNat = (a.toNat + b.toNat) % 2 ^ 64

/-- R8: `rotl64(n, by) = ((n << by) | (n >> (64 - by))) mod 2^64` for `by` in 1..63, shifts on natural numbers. -/
def Obligations.RotationFollowsItsFormula : Prop :=
  ∀ (n : Word) (k : Nat), 1 ≤ k → k ≤ 63 →
    (rotl64 n k).toNat = ((n.toNat <<< k) ||| (n.toNat >>> (64 - k))) % 2 ^ 64

/-- R9: which byte of the list is which byte lane of the word, in both orders, and `be64(bytes_be(h)) = h`, which the
spec marks `[derived: from the three definitions]`. -/
def Obligations.ByteOrderPrimitivesPlaceEachByte : Prop :=
  (∀ b : List Byte, b.length = 8 → ∀ i, (h : i < b.length) →
    (le64 b).extractLsb' (8 * i) 8 = b[i] ∧ (be64 b).extractLsb' (56 - 8 * i) 8 = b[i]) ∧
  (∀ w : Word, (bytesBe w).length = 8 ∧ ∀ i, i < 8 → (bytesBe w)[i]? = some (w.extractLsb' (56 - 8 * i) 8)) ∧
  ∀ w : Word, be64 (bytesBe w) = w

/-- R34, R73: `KeyHalves` takes bytes 0 to 7 and 8 to 15, each little-endian, and is a bijection (the spec's own
`[derived: le64 is a bijection]`). -/
def Obligations.KeyHalvesAreLittleEndianAndBijective : Prop :=
  (∀ (key : Vector Byte 16) (i : Nat), (h : i < 8) →
    (keyHalves key).1.extractLsb' (8 * i) 8 = key[i] ∧ (keyHalves key).2.extractLsb' (8 * i) 8 = key[8 + i]) ∧
  Function.Bijective keyHalves

/-- R14, R37: each constant is `be64` of its eight ASCII bytes. The letters' codes are marked `[from general knowledge, not
in source]` and the four numbers `[derived: from rule R9 and the ASCII table]` by the spec itself. -/
def Obligations.ConstantsAreBigEndianAscii : Prop :=
  initC0 = be64 [0x73, 0x6f, 0x6d, 0x65, 0x70, 0x73, 0x65, 0x75] ∧ initC0 = 0x736f6d6570736575#64 ∧
  initC1 = be64 [0x64, 0x6f, 0x72, 0x61, 0x6e, 0x64, 0x6f, 0x6d] ∧ initC1 = 0x646f72616e646f6d#64 ∧
  initC2 = be64 [0x6c, 0x79, 0x67, 0x65, 0x6e, 0x65, 0x72, 0x61] ∧ initC2 = 0x6c7967656e657261#64 ∧
  initC3 = be64 [0x74, 0x65, 0x64, 0x62, 0x79, 0x74, 0x65, 0x73] ∧ initC3 = 0x7465646279746573#64

/-! ## The engine (42_engine_primitives, 43_finalize) -/

/-- R92: the round as a function of its inputs (the spec's own `[derived: by substituting the assignments in order]`), its
fixed point, and that it is a bijection (`every assignment can be undone`, `[derived]`). -/
def Obligations.SipRoundIsTheRuleAndABijection : Prop :=
  (∀ a b c d : Word,
    let a1 := add64 a b
    let b1 := rotl64 b 13 ^^^ a1
    let a2 := rotl64 a1 32
    let c1 := add64 c d
    let d1 := rotl64 d 16 ^^^ c1
    let a3 := add64 a2 d1
    let d2 := rotl64 d1 21 ^^^ a3
    let c2 := add64 c1 b1
    let b2 := rotl64 b1 17 ^^^ c2
    let c3 := rotl64 c2 32
    sipRound ⟨a, b, c, d⟩ = ⟨a3, b2, c3, d2⟩) ∧
  sipRound ⟨0, 0, 0, 0⟩ = ⟨0, 0, 0, 0⟩ ∧ Function.Bijective sipRound

/-- R93: `SipRounds`, and the sequencer's loop, whose counter `T` goes from 0 up to `n`, one round per count. -/
def Obligations.RoundLoopCountsItsRounds : Prop :=
  (∀ v, sipRounds 0 v = v) ∧ (∀ n v, sipRounds (n + 1) v = sipRounds n (sipRound v)) ∧
  ∀ (n : Nat) (s : State), runRounds n s = { s with v := sipRounds n s.v, t := n }

/-- R94: `CompressWord` on the registers XORs the word into `V[3]`, runs exactly `CR` rounds, XORs it into `V[0]`, and
writes nothing but `V` and the round counter. -/
def Obligations.CompressWordBracketsTheRounds : Prop :=
  ∀ (m : Word) (s : State),
    let r := sipRounds s.cr.toNat ⟨s.v.v0, s.v.v1, s.v.v2, s.v.v3 ^^^ m⟩
    compressWord s.cr.toNat m s.v = ⟨r.v0 ^^^ m, r.v1, r.v2, r.v3⟩ ∧
    ∃ t, seqCompress m s = { s with v := ⟨r.v0 ^^^ m, r.v1, r.v2, r.v3⟩, t := t }

/-- R111: `Init` XORs the key halves with the constants, `V[0]` and `V[2]` taking `K[0]`, `V[1]` and `V[3]` taking
`K[1]`, whatever the message and the rounds. Which constant goes with which word is the spec's own reading (92 D12: `the
spec reads the two lists as parallel`). -/
def Obligations.InitXorsKeyHalvesWithConstants : Prop :=
  ∀ s : State, (initPhase s).v =
    ⟨s.k0 ^^^ 0x736f6d6570736575#64, s.k1 ^^^ 0x646f72616e646f6d#64,
     s.k0 ^^^ 0x6c7967656e657261#64, s.k1 ^^^ 0x7465646279746573#64⟩

/-- R35, R112: block `j` is the 8 bytes from `8*j`, `BUF[8*j]` in bits 7:0 up to `BUF[8*j+7]` in bits 63:56. -/
def Obligations.BlockWordIsLittleEndian : Prop :=
  ∀ (s : State) (j : Nat) (bs : List Byte), j < s.bufLen / 8 → bs.length = 8 →
    (∀ i, (h : i < bs.length) → s.buf.read (8 * j + i) = some bs[i]) →
    ∃ w, blockWord s j = .ok w ∧ ∀ i, (h : i < bs.length) → w.extractLsb' (8 * i) 8 = bs[i]

/-- R38, R114: the leftover bytes in the low lanes, zero in the lanes above them, the length modulo 256 on top. -/
def Obligations.TrailWordLayout : Prop :=
  ∀ (s : State) (bs : List Byte), bs.length = s.bufLen % 8 →
    (∀ i, (h : i < bs.length) → s.buf.read (s.bufLen - s.bufLen % 8 + i) = some bs[i]) →
    ∃ w, trailWord s = .ok w ∧ (w.extractLsb' 56 8).toNat = s.bufLen % 256 ∧
      (∀ i, (h : i < bs.length) → w.extractLsb' (8 * i) 8 = bs[i]) ∧
      ∀ i, bs.length ≤ i → i < 7 → w.extractLsb' (8 * i) 8 = 0

/-- R116: the final phase XORs `0xFF` into `V[2]` and runs exactly `FR` rounds; `h` is the XOR of the four words. -/
def Obligations.FinalPhaseRunsFrRounds : Prop :=
  (∀ s : State, (finalPhase s).v =
    sipRounds s.fr.toNat ⟨s.v.v0, s.v.v1, s.v.v2 ^^^ 0x00000000000000FF#64, s.v.v3⟩) ∧
  ∀ v : VRegs, digestWord v = v.v0 ^^^ v.v1 ^^^ v.v2 ^^^ v.v3

/-- R122: the chain over the first `j` full blocks is unchanged by appending, and the digest of a message is determined
by its last chain value, its leftover bytes, its length modulo 256 and the rounds. The first clause the spec marks
`[derived: from rules R111 to R113]`. -/
def Obligations.ChainPrefixDeterminesTheDigest : Prop :=
  (∀ (c : Nat) (k0 k1 : Word) (M N : List Byte) (j : Nat), j ≤ M.length / 8 →
    chain c k0 k1 (M ++ N) j = chain c k0 k1 M j) ∧
  ∀ (c d : Nat) (k0 k1 k0' k1' : Word) (M M' : List Byte),
    chain c k0 k1 M (M.length / 8) = chain c k0' k1' M' (M'.length / 8) →
    M.drop (8 * (M.length / 8)) = M'.drop (8 * (M'.length / 8)) → M.length % 256 = M'.length % 256 →
    digestWord (sipFinal c d k0 k1 M) = digestWord (sipFinal c d k0' k1' M')

/-! ## The six commands (40, 41, 43): result, completion and frame in one equation each -/

/-- R70: `KEYCLR`, in every state. -/
def Obligations.KeyclrEmptiesTheStaging : Prop :=
  encode .keyclr = 0x01000000#32 ∧
  ∀ s : State, exec .keyclr s = .next { s with keyCnt := 0, responses := s.responses ++ [⟨0, 0⟩] }

/-- R71: `KEYPUSH b`, in every state: stored at `KEYCNT` while there is room, else dropped with `KEYCNT` at 17. -/
def Obligations.KeypushStagesOneByte : Prop :=
  ∀ (b : Byte) (s : State), encode (.keypush b) = BitVec.ofNat 32 (0x02000000 + b.toNat) ∧
    (∀ h : s.keyCnt < 16, exec (.keypush b) s = .next { s with
      ks := s.ks.set s.keyCnt b h, keyCnt := s.keyCnt + 1, responses := s.responses ++ [⟨0, 0⟩] }) ∧
    (16 ≤ s.keyCnt → exec (.keypush b) s = .next { s with
      keyCnt := 17, responses := s.responses ++ [⟨0, 0⟩] })

/-- R72: `NEW c, d`: the two failures and the success. -/
def Obligations.NewConstructsAnInstance : Prop :=
  ∀ (c d : Byte) (s : State), encode (.new c d) = BitVec.ofNat 32 (0x03000000 + 256 * c.toNat + d.toNat) ∧
    (s.keyCnt ≠ 16 → exec (.new c d) s = .next { s with
      keyCnt := 0, configured := false, bufLen := 0, responses := s.responses ++ [⟨1, 0⟩] }) ∧
    (s.keyCnt = 16 → c = 0 ∨ d = 0 → exec (.new c d) s = .next { s with
      keyCnt := 0, configured := false, bufLen := 0, responses := s.responses ++ [⟨2, 0⟩] }) ∧
    (s.keyCnt = 16 → c ≠ 0 → d ≠ 0 → exec (.new c d) s = .next { s with
      keyCnt := 0, configured := true, bufLen := 0, cr := c, fr := d,
      k0 := le64 (s.ks.toList.take 8), k1 := le64 (s.ks.toList.drop 8), responses := s.responses ++ [⟨0, 0⟩] })

/-- R80: `APPEND b`: the two refusals change nothing; otherwise the byte is stored at `BUFLEN`, every other address
reads as before, and `BUFLEN` goes up by one. With `BUFLEN` above the capacity, which R10 rules out, there is no such
address and the model stops (its choice, log 5). -/
def Obligations.AppendStoresOneByte : Prop :=
  ∀ (b : Byte) (s : State), encode (.append b) = BitVec.ofNat 32 (0x04000000 + b.toNat) ∧
    (s.configured = false → exec (.append b) s = .next { s with responses := s.responses ++ [⟨3, 0⟩] }) ∧
    (s.configured = true → s.bufCap = some s.bufLen →
      exec (.append b) s = .next { s with responses := s.responses ++ [⟨4, 0⟩] }) ∧
    (s.configured = true → (∀ c, s.bufCap = some c → s.bufLen < c) →
      ∃ m : Memory, exec (.append b) s = .next { s with
          buf := m, bufLen := s.bufLen + 1, responses := s.responses ++ [⟨0, 0⟩] } ∧
        m.read s.bufLen = some b ∧ ∀ a, a ≠ s.bufLen → m.read a = s.buf.read a) ∧
    ∀ c, s.configured = true → s.bufCap = some c → c < s.bufLen → exec (.append b) s = .fault .outsideBuffer

/-- R82: `RESET`: refused without an instance, else `BUFLEN` is 0 and nothing else changes. -/
def Obligations.ResetCommandEmptiesTheBuffer : Prop :=
  encode .reset = 0x05000000#32 ∧
  ∀ s : State,
    (s.configured = false → exec .reset s = .next { s with responses := s.responses ++ [⟨3, 0⟩] }) ∧
    (s.configured = true → exec .reset s = .next { s with bufLen := 0, responses := s.responses ++ [⟨0, 0⟩] })

/-- R110, R118: `FINALIZE` is refused without an instance; with one, whenever the buffer holds a message `M`, it answers
`(0, SipHash(CR, FR, key, M))`, leaves the four final words in `V` and the sequencer idle, and writes nothing else but
the sequencer's counters. The spec marks the equality with `SipHash` `[derived: from rules R110 to R117]`. -/
def Obligations.FinalizeAnswersTheDigest : Prop :=
  encode .finalize = 0x06000000#32 ∧
  ∀ s : State,
    (s.configured = false → exec .finalize s = .next { s with responses := s.responses ++ [⟨3, 0⟩] }) ∧
    ∀ (M : List Byte) (key : Vector Byte 16), s.configured = true → holds s M → keyHalves key = (s.k0, s.k1) →
      ∃ j t, exec .finalize s = .next { s with
        v := sipFinal s.cr.toNat s.fr.toNat s.k0 s.k1 M, phase := .idle, j := j, t := t,
        responses := s.responses ++ [⟨0, sipHash s.cr.toNat s.fr.toNat key M⟩] }

/-- The model's reading of R19 and R93 (log 7, DEDUCED): after a `FINALIZE` that answers OK, `J` is the number of full
blocks and `T` is `FR`. -/
def Obligations.FinalizeLeavesItsCounters : Prop :=
  ∀ s t : State, s.configured = true → exec .finalize s = .next t →
    t.j = s.bufLen / 8 ∧ t.t = s.fr.toNat ∧ t.phase = .idle

/-- R36, R117: the response of a `FINALIZE` that succeeds is `(0, h)`, `h` the XOR of the four words left in `V`, and
its digest bytes are `D[j] = h[63-8*j : 56-8*j]`. -/
def Obligations.DigestBytesAreMostSignificantFirst : Prop :=
  ∀ s t : State, s.configured = true → exec .finalize s = .next t →
    ∃ r : Response, t.responses = s.responses ++ [r] ∧ r.code = 0 ∧
      r.data = t.v.v0 ^^^ t.v.v1 ^^^ t.v.v2 ^^^ t.v.v3 ∧ r.digestBytes.length = 8 ∧
      ∀ j, j < 8 → r.digestBytes[j]? = some (r.data.extractLsb' (56 - 8 * j) 8)

/-- R121: with an instance and every byte below `BUFLEN` held (R26, kept by `Inv`), `FINALIZE` ends and answers OK. When
such a byte holds no value it stops, as R26 lets a model do and says no run reaches (the model's choice, log 2). -/
def Obligations.FinalizeEndsWithOkOrStopsOnAnUnheldByte : Prop :=
  ∀ s : State, s.configured = true →
    ((∀ a, a < s.bufLen → (s.buf.read a).isSome = true) →
      ∃ (t : State) (d : Word), exec .finalize s = .next t ∧ t.responses = s.responses ++ [⟨0, d⟩]) ∧
    ∀ a, a < s.bufLen → s.buf.read a = none → exec .finalize s = .fault .noByte

/-- R120: `FINALIZE` does not disturb the instance: it leaves everything but `V`, the sequencer and the responses as it
was, and a `FINALIZE` straight after it gives the same response and changes nothing more. -/
def Obligations.FinalizeRepeats : Prop :=
  ∀ s t : State, s.configured = true → exec .finalize s = .next t →
    (t.buf = s.buf ∧ t.bufLen = s.bufLen ∧ t.k0 = s.k0 ∧ t.k1 = s.k1 ∧ t.cr = s.cr ∧ t.fr = s.fr ∧
      t.configured = s.configured ∧ t.ks = s.ks ∧ t.keyCnt = s.keyCnt) ∧
    ∃ r : Response, t.responses = s.responses ++ [r] ∧
      exec .finalize t = .next { t with responses := t.responses ++ [r] }

/-- R45 (c), R123: the digest depends on nothing but the key halves, the rounds and the valid buffer bytes. -/
def Obligations.DigestDependsOnlyOnKeyRoundsAndBuffer : Prop :=
  ∀ s s' t : State, s.configured = true → s'.configured = true → s.k0 = s'.k0 → s.k1 = s'.k1 → s.cr = s'.cr →
    s.fr = s'.fr → s.bufLen = s'.bufLen → (∀ a, a < s.bufLen → s.buf.read a = s'.buf.read a) →
    exec .finalize s = .next t →
    ∃ t', exec .finalize s' = .next t' ∧ lastResponse t' = lastResponse t

/-! ## A `FINALIZE` in progress (10_state R19; 30_encoding R51) -/

/-- R51, R19, R119: with a `FINALIZE` in progress and no hardware reset, a step takes nothing from the port, goes forward
through the phases, writes nothing but the engine's registers, and answers exactly when the phase becomes `IDLE`; and
(R121) while every byte below `BUFLEN` is held, such steps come to that end. What one step does there is log 11. -/
def Obligations.FinalizeInProgressRunsOnWhileWordsWait : Prop :=
  ∀ s : State, s.phase ≠ .idle → (∀ rest, s.inbox ≠ .hreset :: rest) →
    (∀ t : State, step s = .next t →
      t = { s with v := t.v, phase := t.phase, j := t.j, t := t.t, responses := t.responses } ∧
      (t.phase = s.phase ∨
        (s.phase, t.phase) ∈ [(Phase.init, .blocks), (.blocks, .trail), (.trail, .final), (.final, .idle)]) ∧
      t.responses = s.responses ++ if t.phase = .idle then [⟨0, digestWord t.v⟩] else []) ∧
    ((∀ a, a < s.bufLen → (s.buf.read a).isSome = true) →
      ∃ (n : Nat) (t : State) (d : Word), core.run n s = .next t ∧ t.phase = .idle ∧ t.inbox = s.inbox ∧
        t.responses = s.responses ++ [⟨0, d⟩])

/-- R110, R93: the sequencer started at `INIT` and stepped one count at a time (log 11) comes to exactly the state in which
the command `FINALIZE` ends, response and all registers, whatever words wait at the port. -/
def Obligations.SequencerCountsComeToTheFinalizeState : Prop :=
  ∀ s t : State, s.configured = true → s.cr ≠ 0 → s.fr ≠ 0 → (∀ rest, s.inbox ≠ .hreset :: rest) →
    exec .finalize s = .next t → ∃ n, core.run n { s with phase := .init } = .next t

/-! ## Errors (60_exceptions) -/

/-- R131: `InvalidKeyLength` is raised by `NEW` alone, exactly when `KEYCNT` is not 16; what it leaves. -/
def Obligations.InvalidKeyLengthOnlyFromNew : Prop :=
  ∀ (i : Instr) (s t : State), exec i s = .next t →
    ((∃ d, t.responses = s.responses ++ [⟨1, d⟩]) ↔ (∃ c d, i = .new c d) ∧ s.keyCnt ≠ 16) ∧
    ((∃ c d, i = .new c d) → s.keyCnt ≠ 16 → t = { s with
      keyCnt := 0, configured := false, bufLen := 0, responses := s.responses ++ [⟨1, 0⟩] })

/-- R132: `InvalidRoundCount` is raised by `NEW` alone, exactly when the key length is right and a count is 0; what it
leaves. -/
def Obligations.InvalidRoundCountOnlyFromNew : Prop :=
  ∀ (i : Instr) (s t : State), exec i s = .next t →
    ((∃ d, t.responses = s.responses ++ [⟨2, d⟩]) ↔
      (∃ c d, i = .new c d ∧ (c = 0 ∨ d = 0)) ∧ s.keyCnt = 16) ∧
    ((∃ c d, i = .new c d ∧ (c = 0 ∨ d = 0)) → s.keyCnt = 16 → t = { s with
      keyCnt := 0, configured := false, bufLen := 0, responses := s.responses ++ [⟨2, 0⟩] })

/-- R133: `NotConstructed` is raised by `APPEND`, `RESET` and `FINALIZE`, exactly when `CONFIGURED = 0`, and changes
nothing; after a hardware reset and after a failed `NEW`, `CONFIGURED` is 0. -/
def Obligations.NotConstructedWithoutAnInstance : Prop :=
  (∀ (i : Instr) (s t : State), exec i s = .next t →
    ((∃ d, t.responses = s.responses ++ [⟨3, d⟩]) ↔
      ((∃ b, i = .append b) ∨ i = .reset ∨ i = .finalize) ∧ s.configured = false) ∧
    ((∃ d, t.responses = s.responses ++ [⟨3, d⟩]) → t = { s with responses := s.responses ++ [⟨3, 0⟩] })) ∧
  (∀ s : State, (hardwareReset s).configured = false) ∧
  ∀ (c d : Byte) (s t : State), exec (.new c d) s = .next t →
    (t.configured = true ↔ t.responses = s.responses ++ [⟨0, 0⟩])

/-- R134: `BufferFull` is raised by `APPEND` with an instance, exactly when `BUFLEN = BUF_CAP`, so never when the
capacity is unbounded, and changes nothing. -/
def Obligations.BufferFullRefusesTheByte : Prop :=
  ∀ (i : Instr) (s t : State), exec i s = .next t →
    ((∃ d, t.responses = s.responses ++ [⟨4, d⟩]) ↔
      (∃ b, i = .append b) ∧ s.configured = true ∧ s.bufCap = some s.bufLen) ∧
    ((∃ d, t.responses = s.responses ++ [⟨4, d⟩]) → t = { s with responses := s.responses ++ [⟨4, 0⟩] })

/-- R135: every word that does not decode is answered `(5, 0)` with no state change, constructed or not; no command
that decodes raises it. -/
def Obligations.IllegalCommandChangesNothing : Prop :=
  (∀ (s : State) (w : CmdWord) (rest : List PortEvent) (e : DecodeError), s.phase = .idle →
    s.inbox = .command w :: rest → decode w = .error e →
    step s = .next { s with inbox := rest, responses := s.responses ++ [⟨5, 0⟩] }) ∧
  ∀ (i : Instr) (s t : State) (d : Word), exec i s = .next t → t.responses ≠ s.responses ++ [⟨5, d⟩]

/-- R138: the order of the checks: decode before any state; in `NEW` the key length before the round counts; in
`APPEND` the instance before the room. -/
def Obligations.FirstFailingCheckIsReported : Prop :=
  (∀ (s : State) (w : CmdWord) (rest : List PortEvent) (e : DecodeError), s.phase = .idle → s.configured = false →
    s.inbox = .command w :: rest → decode w = .error e →
    ∃ t, step s = .next t ∧ t.responses = s.responses ++ [⟨5, 0⟩]) ∧
  (∀ (s : State) (c d : Byte), s.keyCnt ≠ 16 → c = 0 ∨ d = 0 →
    ∃ t, exec (.new c d) s = .next t ∧ t.responses = s.responses ++ [⟨1, 0⟩]) ∧
  ∀ (s : State) (b : Byte), s.configured = false → s.bufCap = some s.bufLen →
    ∃ t, exec (.append b) s = .next t ∧ t.responses = s.responses ++ [⟨3, 0⟩]

/-- R139: a command that raises an error changes the state only as its rule lists: `KEYCNT`, `CONFIGURED` and `BUFLEN`
to 0 for the two `NEW` errors, nothing for the others; nothing is saved and its response carries no data. -/
def Obligations.ErrorsChangeOnlyWhatTheyList : Prop :=
  ∀ (i : Instr) (s t : State) (r : Response), exec i s = .next t → t.responses = s.responses ++ [r] → r.code ≠ 0 →
    r.data = 0 ∧
    (r.code = 1 ∨ r.code = 2 →
      t = { s with keyCnt := 0, configured := false, bufLen := 0, responses := t.responses }) ∧
    (r.code ≠ 1 → r.code ≠ 2 → t = { s with responses := t.responses })

/-- R56: every command answers exactly one response; its code is 0 to 5; its data is 0 unless it is the digest of a
`FINALIZE` that answers OK; and the digest bytes are the data, `D[0]` on top. -/
def Obligations.EveryCommandAnswersOnce : Prop :=
  ∀ (i : Instr) (s t : State), exec i s = .next t →
    ∃ r : Response, t.responses = s.responses ++ [r] ∧ r.code.toNat ≤ 5 ∧
      (r.data ≠ 0 → i = .finalize ∧ r.code = 0) ∧ be64 r.digestBytes = r.data

/-! ## What only one command changes -/

/-- R12, R16, R75: only `NEW` writes the key halves and the round counts. -/
def Obligations.OnlyNewWritesKeyAndRounds : Prop :=
  ∀ (i : Instr) (s t : State), exec i s = .next t →
    (t.k0 ≠ s.k0 ∨ t.k1 ≠ s.k1 ∨ t.cr ≠ s.cr ∨ t.fr ≠ s.fr) →
    ∃ c d, i = .new c d ∧ t.cr = c ∧ t.fr = d ∧ (t.k0, t.k1) = keyHalves s.ks ∧ t.bufLen = 0

/-- R11, R19: only `FINALIZE` writes `V[0..3]` and the sequencer; no command writes the parameter or the inbox. -/
def Obligations.OnlyFinalizeWritesEngineRegisters : Prop :=
  ∀ (i : Instr) (s t : State), exec i s = .next t →
    (i ≠ .finalize → t.v = s.v ∧ t.phase = s.phase ∧ t.j = s.j ∧ t.t = s.t) ∧
    t.bufCap = s.bufCap ∧ t.inbox = s.inbox

/-- R76: only `KEYCLR`, `KEYPUSH` and `NEW` write the staging or its count, and a staged byte changes only by a
`KEYPUSH` at `KEYCNT`. -/
def Obligations.OnlyKeyCommandsTouchTheStaging : Prop :=
  ∀ (i : Instr) (s t : State), exec i s = .next t →
    ((∃ b, i = .append b) ∨ i = .reset ∨ i = .finalize → t.ks = s.ks ∧ t.keyCnt = s.keyCnt) ∧
    ∀ k, (h : k < 16) → t.ks[k] ≠ s.ks[k] → i = .keypush t.ks[k] ∧ k = s.keyCnt

/-- R32: the only write to the buffer is `APPEND`'s at `BUFLEN`, so no byte below `BUFLEN` is ever rewritten and every
address but `BUFLEN` reads as before after any command; a command that does not add one byte to it either leaves
`BUFLEN` as it was or is a `RESET` or a `NEW` and empties it. -/
def Obligations.BufferIsAppendOnly : Prop :=
  ∀ (i : Instr) (s t : State), exec i s = .next t →
    (∀ a, a ≠ s.bufLen → t.buf.read a = s.buf.read a) ∧
    (t.buf.read s.bufLen ≠ s.buf.read s.bufLen →
      ∃ b, i = .append b ∧ t.buf.read s.bufLen = some b ∧ t.bufLen = s.bufLen + 1) ∧
    (t.bufLen = s.bufLen ∨ (t.bufLen = s.bufLen + 1 ∧ ∃ b, i = .append b ∧ t.buf.read s.bufLen = some b) ∨
      (t.bufLen = 0 ∧ (i = .reset ∨ ∃ c d, i = .new c d)))

/-- R15: over any step, `CONFIGURED` goes to 1 only by a `NEW` that answers OK, and to 0 only by a failed `NEW` or a
hardware reset. -/
def Obligations.ConfiguredChangesOnlyByNewOrReset : Prop :=
  ∀ s t : State, step s = .next t → t.configured ≠ s.configured →
    (∃ rest, s.inbox = .hreset :: rest ∧ t.configured = false) ∨
    ∃ w rest c d r, s.inbox = .command w :: rest ∧ decode w = .ok (.new c d) ∧ t.responses = s.responses ++ [r] ∧
      (t.configured = true ↔ r.code = 0)

/-! ## Reset (10_state R24; 70_reset) -/

/-- R24: the values after hardware reset that the spec gives, for every capacity. That no buffer byte holds a value is the
model's form of the rule's `unspecified (no value)` (log 2), the capacity of `State.reset` its choice (log 4). -/
def Obligations.ResetLeavesTheSpecifiedValues : Prop :=
  (∃ cap, State.reset = State.resetWith cap) ∧
  ∀ cap, (State.resetWith cap).configured = false ∧ (State.resetWith cap).keyCnt = 0 ∧
    (State.resetWith cap).bufLen = 0 ∧ (State.resetWith cap).phase = .idle ∧ (State.resetWith cap).bufCap = cap ∧
    ∀ a, (State.resetWith cap).buf.read a = none

/-- R150: hardware reset from any state, whatever it was doing, even in the middle of a command: the reset values, no
response, and what the host had still to say is untouched. With nothing presented and no command in progress the
hardware does nothing. That no buffer byte holds a value then is log 2, the host's two port ends are log 3. -/
def Obligations.HardwareResetFromAnyState : Prop :=
  (∀ (s : State) (rest : List PortEvent), s.inbox = .hreset :: rest →
    ∃ t, step s = .next t ∧ t.configured = false ∧ t.keyCnt = 0 ∧ t.bufLen = 0 ∧ t.phase = .idle ∧
      (∀ a, t.buf.read a = none) ∧ t.bufCap = s.bufCap ∧ t.inbox = rest ∧ t.responses = s.responses) ∧
  ∀ s : State, s.phase = .idle → s.inbox = [] → step s = .next s

/-! ## The step (30_encoding R51) -/

/-- R51: at a ready port whose word decodes to a command, a step is that command executed from the state in which the
word has left the port, and nothing else. -/
def Obligations.StepRunsTheDecodedCommand : Prop :=
  ∀ (s : State) (w : CmdWord) (rest : List PortEvent) (i : Instr), s.phase = .idle → s.inbox = .command w :: rest →
    decode w = .ok i → step s = exec i { s with inbox := rest }

/-- The model's way of presenting a table row's word (log 3): the very next step runs it. -/
def Obligations.PresentedWordRunsNext : Prop :=
  ∀ (s : State) (nbits w : Nat) (i : Instr), decodeTableWord nbits w = some i →
    step (s.withFetchWord nbits w) = exec i { s with phase := .idle }

/-! ## The invariant -/

/-- The state after hardware reset meets the invariant, whatever the capacity. -/
def Obligations.ResetMeetsTheInvariant : Prop := ∀ cap, Inv (State.resetWith cap)

/-- Every step keeps the invariant, from every state that meets it (R10, R13, R16, R19, R26, R30, R56). -/
def Obligations.StepKeepsTheInvariant : Prop := ∀ s t : State, Inv s → step s = .next t → Inv t

/-- R51, R26: from every state that meets the invariant a step answers a next state, whatever the host presents, so no
stop of the model is ever reached (R26: `no run reaches that fault`, which the spec marks `[derived]`). -/
def Obligations.InvariantStatesAlwaysStep : Prop := ∀ s : State, Inv s → ∃ t, step s = .next t

/-! ## Runs -/

/-- R13: pushing bytes onto an empty staging, in any state: `KEYCNT` counts them up to 16 and is 17 beyond, and the
first 16 are staged in push order. -/
def Obligations.StagingCountsAndKeepsTheFirstSixteen : Prop :=
  ∀ (s : State) (L : List Byte), s.keyCnt = 0 →
    ∃ t, execAll (pushes L) s = .next t ∧ t.keyCnt = (if L.length ≤ 16 then L.length else 17) ∧
      ∀ i, (h : i < 16) → (hL : i < L.length) → t.ks[i] = L[i]

/-- R20: appending bytes to an empty buffer with room for them: `BUFLEN` is their number and `BUF[a]` the `(a+1)`-th of
them, each answered OK, and nothing else changes. -/
def Obligations.BufferHoldsTheAppendedBytes : Prop :=
  ∀ (s : State) (M : List Byte), s.configured = true → s.bufLen = 0 → roomFor s M.length →
    ∃ m : Memory, execAll (appends M) s = .next { s with
        buf := m, bufLen := M.length, responses := s.responses ++ List.replicate M.length ⟨0, 0⟩ } ∧
      ∀ a, (h : a < M.length) → m.read a = some M[a]

/-- R81: chunk boundaries are invisible: `append(a); append(b); finalize()` on an empty buffer gives the same response
as `reset(); append(a+b); finalize()`, and it is a digest. -/
def Obligations.ChunkBoundariesAreInvisible : Prop :=
  ∀ (s : State) (a b : List Byte), s.configured = true → s.bufLen = 0 → roomFor s (a.length + b.length) →
    ∃ t u d, execAll (appends a ++ appends b ++ [.finalize]) s = .next t ∧
      execAll (.reset :: appends (a ++ b) ++ [.finalize]) s = .next u ∧
      lastResponse t = some ⟨0, d⟩ ∧ lastResponse u = some ⟨0, d⟩

/-- R83: `RESET` followed by re-feeding a message gives the response that a freshly constructed instance with the same
key and rounds gives for it (the rule's quoted sentence). -/
def Obligations.ResetMakesTheInstanceReusable : Prop :=
  ∀ (s fresh u : State) (c d : Byte) (M : List Byte), s.configured = true → roomFor s M.length →
    exec (.new c d) fresh = .next u → u.configured = true → u.bufCap = s.bufCap →
    u.k0 = s.k0 → u.k1 = s.k1 → u.cr = s.cr → u.fr = s.fr →
    ∃ t t' r, execAll (.reset :: appends M ++ [.finalize]) s = .next t ∧
      execAll (appends M ++ [.finalize]) u = .next t' ∧ lastResponse t = some r ∧ lastResponse t' = some r ∧ r.code = 0

/-- R120, R80: a `FINALIZE` followed by more `APPEND`s and another `FINALIZE` gives the digest of the whole extended
buffer. -/
def Obligations.AppendAfterFinalizeExtendsTheMessage : Prop :=
  ∀ (s : State) (M N : List Byte) (key : Vector Byte 16), s.configured = true → holds s M →
    roomFor s (M.length + N.length) → keyHalves key = (s.k0, s.k1) →
    ∃ t, execAll (.finalize :: appends N ++ [.finalize]) s = .next t ∧
      lastResponse t = some ⟨0, sipHash s.cr.toNat s.fr.toNat key (M ++ N)⟩

/-- R118 with R76, R152: the whole use of the hardware through its port. From any state with the sequencer idle and
nothing staged (R76, `[derived]`: straight after hardware reset and after any `NEW`), when the host presents the sixteen bytes of a key, `NEW c, d` with `c` and `d` at least 1, the bytes of a
message there is room for, and `FINALIZE`, the machine answers OK to each and then `(0, SipHash(c, d, key, M))`. -/
def Obligations.KeyedMessageThroughThePortIsHashed : Prop :=
  ∀ (s : State) (key : Vector Byte 16) (c d : Byte) (M : List Byte) (rest : List PortEvent),
    s.phase = .idle → s.keyCnt = 0 → c ≠ 0 → d ≠ 0 → roomFor s M.length →
    s.inbox = (pushes key.toList ++ Instr.new c d :: appends M ++ [Instr.finalize]).map
      (fun i => PortEvent.command (encode i)) ++ rest →
    ∃ t : State, core.run (18 + M.length) s = .next t ∧ t.inbox = rest ∧
      t.responses = s.responses ++ List.replicate (17 + M.length) ⟨0, 0⟩ ++ [⟨0, sipHash c.toNat d.toNat key M⟩]

/-- R51, R158: from any state that meets the invariant, whatever finite sequence of command words the host presents,
legal or not, the machine takes them all, one step each, and answers exactly one response per word. Presenting them as a
list is the model's choice (log 3). -/
def Obligations.OneResponsePerCommandWord : Prop :=
  ∀ (s : State) (ws : List CmdWord) (rest : List PortEvent), Inv s →
    s.inbox = ws.map PortEvent.command ++ rest →
    ∃ (t : State) (rs : List Response), core.run ws.length s = .next t ∧ t.inbox = rest ∧
      rs.length = ws.length ∧ t.responses = s.responses ++ rs ∧ t.phase = .idle

/-- R26, which the spec marks `[derived]`: what the spec leaves without a value is never seen. Reset states that differ only there are the same to the
host, and states that are the same to the host stay so over every step, with the same responses; so the reset values
the model names (log 1) can be observed by no host. -/
def Obligations.UnspecifiedValuesAreNeverObserved : Prop :=
  (∀ (cap : Option Nat) (ks : Vector Byte 16) (k0 k1 : Word) (cr fr : Byte) (buf : Memory) (v : VRegs) (j t : Nat)
      (inbox : List PortEvent),
    SameToHost
      { State.resetWith cap with
        ks := ks, k0 := k0, k1 := k1, cr := cr, fr := fr, buf := buf, v := v, j := j, t := t, inbox := inbox }
      { State.resetWith cap with inbox := inbox }) ∧
  ∀ s s' t : State, SameToHost s s' → step s = .next t → ∃ t', step s' = .next t' ∧ SameToHost t t'
end

