-- ==== Sys2Proof/Laws/Memory.lean ====
section
/-! SUPPORT. The laws of the buffer's bytes: a read after a write to the same address gives the byte written, a write
leaves every other address alone, and every write keeps the canonical form. -/

namespace Sys2Proof.Machine

@[simp] theorem Memory.read_nil (a : Nat) : Memory.read [] a = none := rfl

@[simp] theorem Memory.read_write_self (m : Memory) (a : Nat) (b : Byte) : (m.write a b).read a = some b := by
  induction m with
  | nil => simp [Memory.write, Memory.read]
  | cons x m ih =>
    obtain ⟨k, y⟩ := x
    simp only [Memory.write]
    split
    · rename_i h
      simp only [Memory.read, if_neg (Nat.ne_of_lt h)]
      exact ih
    · split <;> simp [Memory.read]

theorem Memory.read_write_ne (m : Memory) {a a' : Nat} (b : Byte) (h : a' ≠ a) :
    (m.write a b).read a' = m.read a' := by
  induction m with
  | nil => simp [Memory.write, Memory.read, h.symm]
  | cons x m ih =>
    obtain ⟨k, y⟩ := x
    simp only [Memory.write]
    split
    · simp only [Memory.read]
      split
      · rfl
      · exact ih
    · split
      · rename_i hk
        subst hk
        simp [Memory.read, h.symm]
      · simp [Memory.read, h.symm]

theorem Memory.mem_write {m : Memory} {a : Nat} {b : Byte} {cell : Host.Cell} (h : cell ∈ m.write a b) :
    cell = (a, b) ∨ cell ∈ m := by
  induction m with
  | nil => simpa [Memory.write] using h
  | cons x m ih =>
    obtain ⟨k, y⟩ := x
    simp only [Memory.write] at h
    split at h
    · rcases List.mem_cons.1 h with h | h
      · exact .inr (by simp [h])
      · exact (ih h).imp_right (List.mem_cons_of_mem _)
    · split at h
      · rcases List.mem_cons.1 h with h | h
        · exact .inl h
        · exact .inr (List.mem_cons_of_mem _ h)
      · exact (List.mem_cons.1 h)

theorem Memory.wf_iff (m : Memory) : m.wf = true ↔ m.Pairwise fun x y => x.1 < y.1 := by
  simp [Memory.wf]

/-- Every write keeps the addresses strictly rising. -/
theorem Memory.write_wf {m : Memory} (a : Nat) (b : Byte) (h : m.wf = true) : (m.write a b).wf = true := by
  rw [Memory.wf_iff] at *
  induction m with
  | nil => simp [Memory.write]
  | cons x m ih =>
    obtain ⟨k, y⟩ := x
    have hm := List.pairwise_cons.1 h
    simp only [Memory.write]
    split
    · rename_i hk
      refine List.pairwise_cons.2 ⟨fun c hc => ?_, ih hm.2⟩
      rcases Memory.mem_write hc with rfl | hc
      · exact hk
      · exact hm.1 c hc
    · split
      · rename_i hk
        subst hk
        exact List.pairwise_cons.2 ⟨hm.1, hm.2⟩
      · refine List.pairwise_cons.2 ⟨fun c hc => ?_, h⟩
        rcases List.mem_cons.1 hc with rfl | hc
        · simp only; omega
        · have := hm.1 c hc
          simp only at *
          omega

/-- An address that holds a value is one of a listed cell. -/
theorem Memory.mem_of_read {m : Memory} {a : Nat} {b : Byte} (h : m.read a = some b) : (a, b) ∈ m := by
  induction m with
  | nil => simp [Memory.read] at h
  | cons x m ih =>
    obtain ⟨k, y⟩ := x
    simp only [Memory.read] at h
    split at h
    · rename_i hk
      subst hk
      simp_all
    · exact List.mem_cons_of_mem _ (ih h)

/-- Reading answers exactly the bytes held, when all of them are. -/
theorem readBytes_ok {m : Memory} {a : Nat} {bs : List Byte}
    (h : ∀ i, (hi : i < bs.length) → m.read (a + i) = some bs[i]) : readBytes m a bs.length = .ok bs := by
  induction bs generalizing a with
  | nil => rfl
  | cons b bs ih =>
    have h0 := h 0 (by simp)
    have ht : readBytes m (a + 1) bs.length = .ok bs := ih fun i hi => by
      have := h (i + 1) (by simpa using hi)
      simpa [Nat.add_assoc, Nat.add_comm 1] using this
    simp only [Nat.add_zero, List.getElem_cons_zero] at h0
    simp [readBytes, h0, ht]

/-- What a read of `n` bytes can answer: all of them, each held; or the fault of one that is not. -/
theorem readBytes_cases (m : Memory) (a n : Nat) :
    (∃ bs, readBytes m a n = .ok bs ∧ bs.length = n ∧ ∀ i, (hi : i < bs.length) → m.read (a + i) = some bs[i]) ∨
      (readBytes m a n = .error .noByte ∧ ∃ i, i < n ∧ m.read (a + i) = none) := by
  induction n generalizing a with
  | zero => exact .inl ⟨[], rfl, rfl, fun i hi => absurd hi (by simp)⟩
  | succ n ih =>
    cases h : m.read a with
    | none => exact .inr ⟨by simp [readBytes, h], 0, by simp, by simpa using h⟩
    | some b =>
      rcases ih (a + 1) with ⟨bs, e, hl, hb⟩ | ⟨e, i, hi, hn⟩
      · refine .inl ⟨b :: bs, by simp [readBytes, h, e], by simp [hl], fun i hi => ?_⟩
        cases i with
        | zero => simpa using h
        | succ i =>
          have := hb i (by simpa using hi)
          simpa [Nat.add_assoc, Nat.add_comm 1] using this
      · refine .inr ⟨by simp [readBytes, h, e], i + 1, by omega, ?_⟩
        simpa [Nat.add_assoc, Nat.add_comm 1] using hn

/-- Reading depends only on the bytes read. -/
theorem readBytes_congr {m m' : Memory} {a n : Nat} (h : ∀ i, i < n → m.read (a + i) = m'.read (a + i)) :
    readBytes m a n = readBytes m' a n := by
  induction n generalizing a with
  | zero => rfl
  | succ n ih =>
    have h0 : m.read a = m'.read a := by simpa using h 0 (by omega)
    have ht : readBytes m (a + 1) n = readBytes m' (a + 1) n := ih fun i hi => by
      have := h (i + 1) (by omega)
      simpa [Nat.add_assoc, Nat.add_comm 1] using this
    simp [readBytes, h0, ht]

end Sys2Proof.Machine
end

