-- ==== Sys2Proof/Laws/State.lean ====
section
/-! SUPPORT. One lemma per field per update of the state, each true by definition, so that no proof unfolds a
record update. -/

namespace Sys2Proof.Machine

@[simp] theorem State.setKeyCnt_ks (n : Nat) (s : State) : (s.setKeyCnt n).ks = s.ks := rfl
@[simp] theorem State.setKeyCnt_keyCnt (n : Nat) (s : State) : (s.setKeyCnt n).keyCnt = n := rfl
@[simp] theorem State.setKeyCnt_configured (n : Nat) (s : State) : (s.setKeyCnt n).configured = s.configured := rfl
@[simp] theorem State.setKeyCnt_k0 (n : Nat) (s : State) : (s.setKeyCnt n).k0 = s.k0 := rfl
@[simp] theorem State.setKeyCnt_k1 (n : Nat) (s : State) : (s.setKeyCnt n).k1 = s.k1 := rfl
@[simp] theorem State.setKeyCnt_cr (n : Nat) (s : State) : (s.setKeyCnt n).cr = s.cr := rfl
@[simp] theorem State.setKeyCnt_fr (n : Nat) (s : State) : (s.setKeyCnt n).fr = s.fr := rfl
@[simp] theorem State.setKeyCnt_buf (n : Nat) (s : State) : (s.setKeyCnt n).buf = s.buf := rfl
@[simp] theorem State.setKeyCnt_bufLen (n : Nat) (s : State) : (s.setKeyCnt n).bufLen = s.bufLen := rfl
@[simp] theorem State.setKeyCnt_v (n : Nat) (s : State) : (s.setKeyCnt n).v = s.v := rfl
@[simp] theorem State.setKeyCnt_phase (n : Nat) (s : State) : (s.setKeyCnt n).phase = s.phase := rfl
@[simp] theorem State.setKeyCnt_j (n : Nat) (s : State) : (s.setKeyCnt n).j = s.j := rfl
@[simp] theorem State.setKeyCnt_t (n : Nat) (s : State) : (s.setKeyCnt n).t = s.t := rfl
@[simp] theorem State.setKeyCnt_bufCap (n : Nat) (s : State) : (s.setKeyCnt n).bufCap = s.bufCap := rfl
@[simp] theorem State.setKeyCnt_inbox (n : Nat) (s : State) : (s.setKeyCnt n).inbox = s.inbox := rfl
@[simp] theorem State.setKeyCnt_responses (n : Nat) (s : State) : (s.setKeyCnt n).responses = s.responses := rfl

@[simp] theorem State.stageByte_ks (i : Nat) (h : i < 16) (b : Byte) (s : State) : (s.stageByte i h b).ks = s.ks.set i b h := rfl
@[simp] theorem State.stageByte_keyCnt (i : Nat) (h : i < 16) (b : Byte) (s : State) : (s.stageByte i h b).keyCnt = s.keyCnt := rfl
@[simp] theorem State.stageByte_configured (i : Nat) (h : i < 16) (b : Byte) (s : State) : (s.stageByte i h b).configured = s.configured := rfl
@[simp] theorem State.stageByte_k0 (i : Nat) (h : i < 16) (b : Byte) (s : State) : (s.stageByte i h b).k0 = s.k0 := rfl
@[simp] theorem State.stageByte_k1 (i : Nat) (h : i < 16) (b : Byte) (s : State) : (s.stageByte i h b).k1 = s.k1 := rfl
@[simp] theorem State.stageByte_cr (i : Nat) (h : i < 16) (b : Byte) (s : State) : (s.stageByte i h b).cr = s.cr := rfl
@[simp] theorem State.stageByte_fr (i : Nat) (h : i < 16) (b : Byte) (s : State) : (s.stageByte i h b).fr = s.fr := rfl
@[simp] theorem State.stageByte_buf (i : Nat) (h : i < 16) (b : Byte) (s : State) : (s.stageByte i h b).buf = s.buf := rfl
@[simp] theorem State.stageByte_bufLen (i : Nat) (h : i < 16) (b : Byte) (s : State) : (s.stageByte i h b).bufLen = s.bufLen := rfl
@[simp] theorem State.stageByte_v (i : Nat) (h : i < 16) (b : Byte) (s : State) : (s.stageByte i h b).v = s.v := rfl
@[simp] theorem State.stageByte_phase (i : Nat) (h : i < 16) (b : Byte) (s : State) : (s.stageByte i h b).phase = s.phase := rfl
@[simp] theorem State.stageByte_j (i : Nat) (h : i < 16) (b : Byte) (s : State) : (s.stageByte i h b).j = s.j := rfl
@[simp] theorem State.stageByte_t (i : Nat) (h : i < 16) (b : Byte) (s : State) : (s.stageByte i h b).t = s.t := rfl
@[simp] theorem State.stageByte_bufCap (i : Nat) (h : i < 16) (b : Byte) (s : State) : (s.stageByte i h b).bufCap = s.bufCap := rfl
@[simp] theorem State.stageByte_inbox (i : Nat) (h : i < 16) (b : Byte) (s : State) : (s.stageByte i h b).inbox = s.inbox := rfl
@[simp] theorem State.stageByte_responses (i : Nat) (h : i < 16) (b : Byte) (s : State) : (s.stageByte i h b).responses = s.responses := rfl

@[simp] theorem State.dropInstance_ks (s : State) : (s.dropInstance).ks = s.ks := rfl
@[simp] theorem State.dropInstance_keyCnt (s : State) : (s.dropInstance).keyCnt = s.keyCnt := rfl
@[simp] theorem State.dropInstance_configured (s : State) : (s.dropInstance).configured = false := rfl
@[simp] theorem State.dropInstance_k0 (s : State) : (s.dropInstance).k0 = s.k0 := rfl
@[simp] theorem State.dropInstance_k1 (s : State) : (s.dropInstance).k1 = s.k1 := rfl
@[simp] theorem State.dropInstance_cr (s : State) : (s.dropInstance).cr = s.cr := rfl
@[simp] theorem State.dropInstance_fr (s : State) : (s.dropInstance).fr = s.fr := rfl
@[simp] theorem State.dropInstance_buf (s : State) : (s.dropInstance).buf = s.buf := rfl
@[simp] theorem State.dropInstance_bufLen (s : State) : (s.dropInstance).bufLen = 0 := rfl
@[simp] theorem State.dropInstance_v (s : State) : (s.dropInstance).v = s.v := rfl
@[simp] theorem State.dropInstance_phase (s : State) : (s.dropInstance).phase = s.phase := rfl
@[simp] theorem State.dropInstance_j (s : State) : (s.dropInstance).j = s.j := rfl
@[simp] theorem State.dropInstance_t (s : State) : (s.dropInstance).t = s.t := rfl
@[simp] theorem State.dropInstance_bufCap (s : State) : (s.dropInstance).bufCap = s.bufCap := rfl
@[simp] theorem State.dropInstance_inbox (s : State) : (s.dropInstance).inbox = s.inbox := rfl
@[simp] theorem State.dropInstance_responses (s : State) : (s.dropInstance).responses = s.responses := rfl

@[simp] theorem State.install_ks (k : Word × Word) (c d : Byte) (s : State) : (s.install k c d).ks = s.ks := rfl
@[simp] theorem State.install_keyCnt (k : Word × Word) (c d : Byte) (s : State) : (s.install k c d).keyCnt = s.keyCnt := rfl
@[simp] theorem State.install_configured (k : Word × Word) (c d : Byte) (s : State) : (s.install k c d).configured = true := rfl
@[simp] theorem State.install_k0 (k : Word × Word) (c d : Byte) (s : State) : (s.install k c d).k0 = k.1 := rfl
@[simp] theorem State.install_k1 (k : Word × Word) (c d : Byte) (s : State) : (s.install k c d).k1 = k.2 := rfl
@[simp] theorem State.install_cr (k : Word × Word) (c d : Byte) (s : State) : (s.install k c d).cr = c := rfl
@[simp] theorem State.install_fr (k : Word × Word) (c d : Byte) (s : State) : (s.install k c d).fr = d := rfl
@[simp] theorem State.install_buf (k : Word × Word) (c d : Byte) (s : State) : (s.install k c d).buf = s.buf := rfl
@[simp] theorem State.install_bufLen (k : Word × Word) (c d : Byte) (s : State) : (s.install k c d).bufLen = 0 := rfl
@[simp] theorem State.install_v (k : Word × Word) (c d : Byte) (s : State) : (s.install k c d).v = s.v := rfl
@[simp] theorem State.install_phase (k : Word × Word) (c d : Byte) (s : State) : (s.install k c d).phase = s.phase := rfl
@[simp] theorem State.install_j (k : Word × Word) (c d : Byte) (s : State) : (s.install k c d).j = s.j := rfl
@[simp] theorem State.install_t (k : Word × Word) (c d : Byte) (s : State) : (s.install k c d).t = s.t := rfl
@[simp] theorem State.install_bufCap (k : Word × Word) (c d : Byte) (s : State) : (s.install k c d).bufCap = s.bufCap := rfl
@[simp] theorem State.install_inbox (k : Word × Word) (c d : Byte) (s : State) : (s.install k c d).inbox = s.inbox := rfl
@[simp] theorem State.install_responses (k : Word × Word) (c d : Byte) (s : State) : (s.install k c d).responses = s.responses := rfl

@[simp] theorem State.storeByte_ks (b : Byte) (s : State) : (s.storeByte b).ks = s.ks := rfl
@[simp] theorem State.storeByte_keyCnt (b : Byte) (s : State) : (s.storeByte b).keyCnt = s.keyCnt := rfl
@[simp] theorem State.storeByte_configured (b : Byte) (s : State) : (s.storeByte b).configured = s.configured := rfl
@[simp] theorem State.storeByte_k0 (b : Byte) (s : State) : (s.storeByte b).k0 = s.k0 := rfl
@[simp] theorem State.storeByte_k1 (b : Byte) (s : State) : (s.storeByte b).k1 = s.k1 := rfl
@[simp] theorem State.storeByte_cr (b : Byte) (s : State) : (s.storeByte b).cr = s.cr := rfl
@[simp] theorem State.storeByte_fr (b : Byte) (s : State) : (s.storeByte b).fr = s.fr := rfl
@[simp] theorem State.storeByte_buf (b : Byte) (s : State) : (s.storeByte b).buf = s.buf.write s.bufLen b := rfl
@[simp] theorem State.storeByte_bufLen (b : Byte) (s : State) : (s.storeByte b).bufLen = s.bufLen + 1 := rfl
@[simp] theorem State.storeByte_v (b : Byte) (s : State) : (s.storeByte b).v = s.v := rfl
@[simp] theorem State.storeByte_phase (b : Byte) (s : State) : (s.storeByte b).phase = s.phase := rfl
@[simp] theorem State.storeByte_j (b : Byte) (s : State) : (s.storeByte b).j = s.j := rfl
@[simp] theorem State.storeByte_t (b : Byte) (s : State) : (s.storeByte b).t = s.t := rfl
@[simp] theorem State.storeByte_bufCap (b : Byte) (s : State) : (s.storeByte b).bufCap = s.bufCap := rfl
@[simp] theorem State.storeByte_inbox (b : Byte) (s : State) : (s.storeByte b).inbox = s.inbox := rfl
@[simp] theorem State.storeByte_responses (b : Byte) (s : State) : (s.storeByte b).responses = s.responses := rfl

@[simp] theorem State.clearBuf_ks (s : State) : (s.clearBuf).ks = s.ks := rfl
@[simp] theorem State.clearBuf_keyCnt (s : State) : (s.clearBuf).keyCnt = s.keyCnt := rfl
@[simp] theorem State.clearBuf_configured (s : State) : (s.clearBuf).configured = s.configured := rfl
@[simp] theorem State.clearBuf_k0 (s : State) : (s.clearBuf).k0 = s.k0 := rfl
@[simp] theorem State.clearBuf_k1 (s : State) : (s.clearBuf).k1 = s.k1 := rfl
@[simp] theorem State.clearBuf_cr (s : State) : (s.clearBuf).cr = s.cr := rfl
@[simp] theorem State.clearBuf_fr (s : State) : (s.clearBuf).fr = s.fr := rfl
@[simp] theorem State.clearBuf_buf (s : State) : (s.clearBuf).buf = s.buf := rfl
@[simp] theorem State.clearBuf_bufLen (s : State) : (s.clearBuf).bufLen = 0 := rfl
@[simp] theorem State.clearBuf_v (s : State) : (s.clearBuf).v = s.v := rfl
@[simp] theorem State.clearBuf_phase (s : State) : (s.clearBuf).phase = s.phase := rfl
@[simp] theorem State.clearBuf_j (s : State) : (s.clearBuf).j = s.j := rfl
@[simp] theorem State.clearBuf_t (s : State) : (s.clearBuf).t = s.t := rfl
@[simp] theorem State.clearBuf_bufCap (s : State) : (s.clearBuf).bufCap = s.bufCap := rfl
@[simp] theorem State.clearBuf_inbox (s : State) : (s.clearBuf).inbox = s.inbox := rfl
@[simp] theorem State.clearBuf_responses (s : State) : (s.clearBuf).responses = s.responses := rfl

@[simp] theorem State.setV_ks (v : VRegs) (s : State) : (s.setV v).ks = s.ks := rfl
@[simp] theorem State.setV_keyCnt (v : VRegs) (s : State) : (s.setV v).keyCnt = s.keyCnt := rfl
@[simp] theorem State.setV_configured (v : VRegs) (s : State) : (s.setV v).configured = s.configured := rfl
@[simp] theorem State.setV_k0 (v : VRegs) (s : State) : (s.setV v).k0 = s.k0 := rfl
@[simp] theorem State.setV_k1 (v : VRegs) (s : State) : (s.setV v).k1 = s.k1 := rfl
@[simp] theorem State.setV_cr (v : VRegs) (s : State) : (s.setV v).cr = s.cr := rfl
@[simp] theorem State.setV_fr (v : VRegs) (s : State) : (s.setV v).fr = s.fr := rfl
@[simp] theorem State.setV_buf (v : VRegs) (s : State) : (s.setV v).buf = s.buf := rfl
@[simp] theorem State.setV_bufLen (v : VRegs) (s : State) : (s.setV v).bufLen = s.bufLen := rfl
@[simp] theorem State.setV_v (v : VRegs) (s : State) : (s.setV v).v = v := rfl
@[simp] theorem State.setV_phase (v : VRegs) (s : State) : (s.setV v).phase = s.phase := rfl
@[simp] theorem State.setV_j (v : VRegs) (s : State) : (s.setV v).j = s.j := rfl
@[simp] theorem State.setV_t (v : VRegs) (s : State) : (s.setV v).t = s.t := rfl
@[simp] theorem State.setV_bufCap (v : VRegs) (s : State) : (s.setV v).bufCap = s.bufCap := rfl
@[simp] theorem State.setV_inbox (v : VRegs) (s : State) : (s.setV v).inbox = s.inbox := rfl
@[simp] theorem State.setV_responses (v : VRegs) (s : State) : (s.setV v).responses = s.responses := rfl

@[simp] theorem State.setPhase_ks (p : Phase) (s : State) : (s.setPhase p).ks = s.ks := rfl
@[simp] theorem State.setPhase_keyCnt (p : Phase) (s : State) : (s.setPhase p).keyCnt = s.keyCnt := rfl
@[simp] theorem State.setPhase_configured (p : Phase) (s : State) : (s.setPhase p).configured = s.configured := rfl
@[simp] theorem State.setPhase_k0 (p : Phase) (s : State) : (s.setPhase p).k0 = s.k0 := rfl
@[simp] theorem State.setPhase_k1 (p : Phase) (s : State) : (s.setPhase p).k1 = s.k1 := rfl
@[simp] theorem State.setPhase_cr (p : Phase) (s : State) : (s.setPhase p).cr = s.cr := rfl
@[simp] theorem State.setPhase_fr (p : Phase) (s : State) : (s.setPhase p).fr = s.fr := rfl
@[simp] theorem State.setPhase_buf (p : Phase) (s : State) : (s.setPhase p).buf = s.buf := rfl
@[simp] theorem State.setPhase_bufLen (p : Phase) (s : State) : (s.setPhase p).bufLen = s.bufLen := rfl
@[simp] theorem State.setPhase_v (p : Phase) (s : State) : (s.setPhase p).v = s.v := rfl
@[simp] theorem State.setPhase_phase (p : Phase) (s : State) : (s.setPhase p).phase = p := rfl
@[simp] theorem State.setPhase_j (p : Phase) (s : State) : (s.setPhase p).j = s.j := rfl
@[simp] theorem State.setPhase_t (p : Phase) (s : State) : (s.setPhase p).t = s.t := rfl
@[simp] theorem State.setPhase_bufCap (p : Phase) (s : State) : (s.setPhase p).bufCap = s.bufCap := rfl
@[simp] theorem State.setPhase_inbox (p : Phase) (s : State) : (s.setPhase p).inbox = s.inbox := rfl
@[simp] theorem State.setPhase_responses (p : Phase) (s : State) : (s.setPhase p).responses = s.responses := rfl

@[simp] theorem State.setJ_ks (n : Nat) (s : State) : (s.setJ n).ks = s.ks := rfl
@[simp] theorem State.setJ_keyCnt (n : Nat) (s : State) : (s.setJ n).keyCnt = s.keyCnt := rfl
@[simp] theorem State.setJ_configured (n : Nat) (s : State) : (s.setJ n).configured = s.configured := rfl
@[simp] theorem State.setJ_k0 (n : Nat) (s : State) : (s.setJ n).k0 = s.k0 := rfl
@[simp] theorem State.setJ_k1 (n : Nat) (s : State) : (s.setJ n).k1 = s.k1 := rfl
@[simp] theorem State.setJ_cr (n : Nat) (s : State) : (s.setJ n).cr = s.cr := rfl
@[simp] theorem State.setJ_fr (n : Nat) (s : State) : (s.setJ n).fr = s.fr := rfl
@[simp] theorem State.setJ_buf (n : Nat) (s : State) : (s.setJ n).buf = s.buf := rfl
@[simp] theorem State.setJ_bufLen (n : Nat) (s : State) : (s.setJ n).bufLen = s.bufLen := rfl
@[simp] theorem State.setJ_v (n : Nat) (s : State) : (s.setJ n).v = s.v := rfl
@[simp] theorem State.setJ_phase (n : Nat) (s : State) : (s.setJ n).phase = s.phase := rfl
@[simp] theorem State.setJ_j (n : Nat) (s : State) : (s.setJ n).j = n := rfl
@[simp] theorem State.setJ_t (n : Nat) (s : State) : (s.setJ n).t = s.t := rfl
@[simp] theorem State.setJ_bufCap (n : Nat) (s : State) : (s.setJ n).bufCap = s.bufCap := rfl
@[simp] theorem State.setJ_inbox (n : Nat) (s : State) : (s.setJ n).inbox = s.inbox := rfl
@[simp] theorem State.setJ_responses (n : Nat) (s : State) : (s.setJ n).responses = s.responses := rfl

@[simp] theorem State.setT_ks (n : Nat) (s : State) : (s.setT n).ks = s.ks := rfl
@[simp] theorem State.setT_keyCnt (n : Nat) (s : State) : (s.setT n).keyCnt = s.keyCnt := rfl
@[simp] theorem State.setT_configured (n : Nat) (s : State) : (s.setT n).configured = s.configured := rfl
@[simp] theorem State.setT_k0 (n : Nat) (s : State) : (s.setT n).k0 = s.k0 := rfl
@[simp] theorem State.setT_k1 (n : Nat) (s : State) : (s.setT n).k1 = s.k1 := rfl
@[simp] theorem State.setT_cr (n : Nat) (s : State) : (s.setT n).cr = s.cr := rfl
@[simp] theorem State.setT_fr (n : Nat) (s : State) : (s.setT n).fr = s.fr := rfl
@[simp] theorem State.setT_buf (n : Nat) (s : State) : (s.setT n).buf = s.buf := rfl
@[simp] theorem State.setT_bufLen (n : Nat) (s : State) : (s.setT n).bufLen = s.bufLen := rfl
@[simp] theorem State.setT_v (n : Nat) (s : State) : (s.setT n).v = s.v := rfl
@[simp] theorem State.setT_phase (n : Nat) (s : State) : (s.setT n).phase = s.phase := rfl
@[simp] theorem State.setT_j (n : Nat) (s : State) : (s.setT n).j = s.j := rfl
@[simp] theorem State.setT_t (n : Nat) (s : State) : (s.setT n).t = n := rfl
@[simp] theorem State.setT_bufCap (n : Nat) (s : State) : (s.setT n).bufCap = s.bufCap := rfl
@[simp] theorem State.setT_inbox (n : Nat) (s : State) : (s.setT n).inbox = s.inbox := rfl
@[simp] theorem State.setT_responses (n : Nat) (s : State) : (s.setT n).responses = s.responses := rfl

@[simp] theorem State.setInbox_ks (q : List PortEvent) (s : State) : (s.setInbox q).ks = s.ks := rfl
@[simp] theorem State.setInbox_keyCnt (q : List PortEvent) (s : State) : (s.setInbox q).keyCnt = s.keyCnt := rfl
@[simp] theorem State.setInbox_configured (q : List PortEvent) (s : State) : (s.setInbox q).configured = s.configured := rfl
@[simp] theorem State.setInbox_k0 (q : List PortEvent) (s : State) : (s.setInbox q).k0 = s.k0 := rfl
@[simp] theorem State.setInbox_k1 (q : List PortEvent) (s : State) : (s.setInbox q).k1 = s.k1 := rfl
@[simp] theorem State.setInbox_cr (q : List PortEvent) (s : State) : (s.setInbox q).cr = s.cr := rfl
@[simp] theorem State.setInbox_fr (q : List PortEvent) (s : State) : (s.setInbox q).fr = s.fr := rfl
@[simp] theorem State.setInbox_buf (q : List PortEvent) (s : State) : (s.setInbox q).buf = s.buf := rfl
@[simp] theorem State.setInbox_bufLen (q : List PortEvent) (s : State) : (s.setInbox q).bufLen = s.bufLen := rfl
@[simp] theorem State.setInbox_v (q : List PortEvent) (s : State) : (s.setInbox q).v = s.v := rfl
@[simp] theorem State.setInbox_phase (q : List PortEvent) (s : State) : (s.setInbox q).phase = s.phase := rfl
@[simp] theorem State.setInbox_j (q : List PortEvent) (s : State) : (s.setInbox q).j = s.j := rfl
@[simp] theorem State.setInbox_t (q : List PortEvent) (s : State) : (s.setInbox q).t = s.t := rfl
@[simp] theorem State.setInbox_bufCap (q : List PortEvent) (s : State) : (s.setInbox q).bufCap = s.bufCap := rfl
@[simp] theorem State.setInbox_inbox (q : List PortEvent) (s : State) : (s.setInbox q).inbox = q := rfl
@[simp] theorem State.setInbox_responses (q : List PortEvent) (s : State) : (s.setInbox q).responses = s.responses := rfl

@[simp] theorem State.respond_ks (c : RspCode) (d : Word) (s : State) : (s.respond c d).ks = s.ks := rfl
@[simp] theorem State.respond_keyCnt (c : RspCode) (d : Word) (s : State) : (s.respond c d).keyCnt = s.keyCnt := rfl
@[simp] theorem State.respond_configured (c : RspCode) (d : Word) (s : State) : (s.respond c d).configured = s.configured := rfl
@[simp] theorem State.respond_k0 (c : RspCode) (d : Word) (s : State) : (s.respond c d).k0 = s.k0 := rfl
@[simp] theorem State.respond_k1 (c : RspCode) (d : Word) (s : State) : (s.respond c d).k1 = s.k1 := rfl
@[simp] theorem State.respond_cr (c : RspCode) (d : Word) (s : State) : (s.respond c d).cr = s.cr := rfl
@[simp] theorem State.respond_fr (c : RspCode) (d : Word) (s : State) : (s.respond c d).fr = s.fr := rfl
@[simp] theorem State.respond_buf (c : RspCode) (d : Word) (s : State) : (s.respond c d).buf = s.buf := rfl
@[simp] theorem State.respond_bufLen (c : RspCode) (d : Word) (s : State) : (s.respond c d).bufLen = s.bufLen := rfl
@[simp] theorem State.respond_v (c : RspCode) (d : Word) (s : State) : (s.respond c d).v = s.v := rfl
@[simp] theorem State.respond_phase (c : RspCode) (d : Word) (s : State) : (s.respond c d).phase = s.phase := rfl
@[simp] theorem State.respond_j (c : RspCode) (d : Word) (s : State) : (s.respond c d).j = s.j := rfl
@[simp] theorem State.respond_t (c : RspCode) (d : Word) (s : State) : (s.respond c d).t = s.t := rfl
@[simp] theorem State.respond_bufCap (c : RspCode) (d : Word) (s : State) : (s.respond c d).bufCap = s.bufCap := rfl
@[simp] theorem State.respond_inbox (c : RspCode) (d : Word) (s : State) : (s.respond c d).inbox = s.inbox := rfl
@[simp] theorem State.respond_responses (c : RspCode) (d : Word) (s : State) : (s.respond c d).responses = s.responses ++ [⟨c, d⟩] := rfl

@[simp] theorem State.respondOk_ks (s : State) : (s.respondOk).ks = s.ks := rfl
@[simp] theorem State.respondOk_keyCnt (s : State) : (s.respondOk).keyCnt = s.keyCnt := rfl
@[simp] theorem State.respondOk_configured (s : State) : (s.respondOk).configured = s.configured := rfl
@[simp] theorem State.respondOk_k0 (s : State) : (s.respondOk).k0 = s.k0 := rfl
@[simp] theorem State.respondOk_k1 (s : State) : (s.respondOk).k1 = s.k1 := rfl
@[simp] theorem State.respondOk_cr (s : State) : (s.respondOk).cr = s.cr := rfl
@[simp] theorem State.respondOk_fr (s : State) : (s.respondOk).fr = s.fr := rfl
@[simp] theorem State.respondOk_buf (s : State) : (s.respondOk).buf = s.buf := rfl
@[simp] theorem State.respondOk_bufLen (s : State) : (s.respondOk).bufLen = s.bufLen := rfl
@[simp] theorem State.respondOk_v (s : State) : (s.respondOk).v = s.v := rfl
@[simp] theorem State.respondOk_phase (s : State) : (s.respondOk).phase = s.phase := rfl
@[simp] theorem State.respondOk_j (s : State) : (s.respondOk).j = s.j := rfl
@[simp] theorem State.respondOk_t (s : State) : (s.respondOk).t = s.t := rfl
@[simp] theorem State.respondOk_bufCap (s : State) : (s.respondOk).bufCap = s.bufCap := rfl
@[simp] theorem State.respondOk_inbox (s : State) : (s.respondOk).inbox = s.inbox := rfl
@[simp] theorem State.respondOk_responses (s : State) : (s.respondOk).responses = s.responses ++ [⟨0, 0⟩] := rfl

@[simp] theorem hardwareReset_ks (s : State) : (hardwareReset s).ks = Vector.replicate 16 0 := rfl
@[simp] theorem hardwareReset_keyCnt (s : State) : (hardwareReset s).keyCnt = 0 := rfl
@[simp] theorem hardwareReset_configured (s : State) : (hardwareReset s).configured = false := rfl
@[simp] theorem hardwareReset_k0 (s : State) : (hardwareReset s).k0 = 0 := rfl
@[simp] theorem hardwareReset_k1 (s : State) : (hardwareReset s).k1 = 0 := rfl
@[simp] theorem hardwareReset_cr (s : State) : (hardwareReset s).cr = 0 := rfl
@[simp] theorem hardwareReset_fr (s : State) : (hardwareReset s).fr = 0 := rfl
@[simp] theorem hardwareReset_buf (s : State) : (hardwareReset s).buf = [] := rfl
@[simp] theorem hardwareReset_bufLen (s : State) : (hardwareReset s).bufLen = 0 := rfl
@[simp] theorem hardwareReset_v (s : State) : (hardwareReset s).v = ⟨0, 0, 0, 0⟩ := rfl
@[simp] theorem hardwareReset_phase (s : State) : (hardwareReset s).phase = .idle := rfl
@[simp] theorem hardwareReset_j (s : State) : (hardwareReset s).j = 0 := rfl
@[simp] theorem hardwareReset_t (s : State) : (hardwareReset s).t = 0 := rfl
@[simp] theorem hardwareReset_bufCap (s : State) : (hardwareReset s).bufCap = s.bufCap := rfl
@[simp] theorem hardwareReset_inbox (s : State) : (hardwareReset s).inbox = s.inbox := rfl
@[simp] theorem hardwareReset_responses (s : State) : (hardwareReset s).responses = s.responses := rfl

end Sys2Proof.Machine
end

