-- ==== Sys2Proof/Laws/Sequencer.lean ====
section
/-! SUPPORT. What each operation of the sequencer does to the state: one lemma per operation, cited instead of
unfolding it. -/

namespace Sys2Proof.Machine

theorem countRounds_eq (n : Nat) (s : State) :
    countRounds n s = { s with v := sipRounds n s.v, t := s.t + n } := by
  induction n generalizing s with
  | zero => rfl
  | succ n ih =>
    rw [countRounds, ih]
    simp only [roundStep, State.setV, State.setT, sipRounds]
    congr 1
    omega

/-- A loop of `n` rounds leaves `n` in `T` and the rounds' result in `V`. -/
theorem runRounds_eq (n : Nat) (s : State) : runRounds n s = { s with v := sipRounds n s.v, t := n } := by
  rw [runRounds, countRounds_eq]
  simp [State.setT]

/-- `CompressWord` on the registers is the function `compressWord` on `V`, with `T` left at `CR`. -/
theorem seqCompress_eq (m : Word) (s : State) :
    seqCompress m s = { s with v := compressWord s.cr.toNat m s.v, t := s.cr.toNat } := by
  simp only [seqCompress, runRounds_eq, State.setV, roundCount, compressWord]

theorem finalPhase_eq (s : State) :
    finalPhase s = { s with phase := .final, v := sipRounds s.fr.toNat (finalMix s.v), t := s.fr.toNat } := by
  simp only [finalPhase, runRounds_eq, State.setV, State.setPhase, roundCount]

/-- A block within the buffer is read whole or faults on a byte that holds no value. -/
theorem memRead_inside {s : State} {a n : Nat} (h : a + n ≤ s.bufLen) : memRead s a n = readBytes s.buf a n := by
  simp [memRead, h]

/-- What a run of block steps can answer: the registers advanced over `k` blocks and nothing else changed, or the
fault of a byte that holds no value. -/
theorem runBlocks_cases (k : Nat) (s : State) (h : 8 * (s.j + k) ≤ s.bufLen) :
    (∃ v t, runBlocks k s = .ok { s with v := v, t := t, j := s.j + k }) ∨ runBlocks k s = .error .noByte := by
  induction k generalizing s with
  | zero => exact .inl ⟨s.v, s.t, rfl⟩
  | succ k ih =>
    have hr := memRead_inside (s := s) (a := 8 * s.j) (n := 8) (by omega)
    rcases readBytes_cases s.buf (8 * s.j) 8 with ⟨bs, e, -, -⟩ | ⟨e, -⟩
    · have hb : blockWord s s.j = .ok (le64 bs) := by simp [blockWord, hr, e]
      simp only [runBlocks, hb, seqCompress_eq]
      rcases ih (State.setJ (s.j + 1) { s with v := compressWord s.cr.toNat (le64 bs) s.v, t := s.cr.toNat })
        (by simp only [State.setJ]; omega) with ⟨v, t, e'⟩ | e'
      · refine .inl ⟨v, t, ?_⟩
        simp only [State.setJ] at e' ⊢
        rw [e', show s.j + (k + 1) = s.j + 1 + k by omega]
      · exact .inr e'
    · exact .inr (by simp [runBlocks, blockWord, hr, e])

/-- The trailing word is read whole, or faults on a byte that holds no value. -/
theorem trailWord_cases (s : State) : (∃ w, trailWord s = .ok w) ∨ trailWord s = .error .noByte := by
  have hr := memRead_inside (s := s) (a := s.bufLen - s.bufLen % 8) (n := s.bufLen % 8)
    (by have := Nat.mod_le s.bufLen 8; omega)
  rcases readBytes_cases s.buf (s.bufLen - s.bufLen % 8) (s.bufLen % 8) with ⟨bs, e, -, -⟩ | ⟨e, -⟩
  · exact .inl ⟨trailPlace s.bufLen bs, by simp [trailWord, hr, e]⟩
  · exact .inr (by simp [trailWord, hr, e])

theorem blocksPhase_cases (s : State) :
    (∃ v t, blocksPhase s = .ok { s with v := v, t := t, phase := .blocks, j := s.bufLen / 8 }) ∨
      blocksPhase s = .error .noByte := by
  rcases runBlocks_cases (s.bufLen / 8) ((s.setPhase .blocks).setJ 0)
    (by simp only [State.setJ, State.setPhase]; omega) with ⟨v, t, e⟩ | e
  · refine .inl ⟨v, t, e.trans ?_⟩
    simp only [State.setJ, State.setPhase, Nat.zero_add]
  · exact .inr e

theorem trailPhase_cases (s : State) :
    (∃ v, trailPhase s = .ok { s with v := v, t := s.cr.toNat, phase := .trail }) ∨
      trailPhase s = .error .noByte := by
  rcases trailWord_cases s with ⟨w, e⟩ | e
  · exact .inl ⟨compressWord s.cr.toNat w s.v, by simp only [trailPhase, e, seqCompress_eq, State.setPhase]⟩
  · exact .inr (by simp only [trailPhase, e])

/-- What the phases of a `FINALIZE` can answer: the engine's registers rewritten with the sequencer idle and nothing
else changed, or the fault of a byte that holds no value. -/
theorem runPhases_cases (s : State) :
    (∃ v, runPhases s = .ok { s with v := v, phase := .idle, j := s.bufLen / 8, t := s.fr.toNat }) ∨
      runPhases s = .error .noByte := by
  rcases blocksPhase_cases (initPhase s) with ⟨v, t, e⟩ | e
  · generalize hu : ({ initPhase s with v := v, t := t, phase := .blocks, j := (initPhase s).bufLen / 8 } : State) = u
      at e
    rcases trailPhase_cases u with ⟨v', e'⟩ | e'
    · refine .inl ⟨sipRounds s.fr.toNat (finalMix v'), ?_⟩
      simp only [runPhases, e, e', finalPhase_eq, State.setPhase]
      subst hu
      rfl
    · exact .inr (by simp only [runPhases, e, e'])
  · exact .inr (by simp only [runPhases, e])

/-! ## One count of the sequencer -/

/-- A count rewrites `V` and adds one to `T`. -/
theorem countStep_eq (f : VRegs → VRegs) (s : State) :
    countStep f s = { s with v := sipRound (if s.t = 0 then f s.v else s.v), t := s.t + 1 } := by
  by_cases h : s.t = 0 <;> simp [countStep, roundStep, State.setV, State.setT, h]

theorem wordStep_round {m : Word} {after : State → State} {s : State} (h : s.t < s.cr.toNat) :
    wordStep m after s = { s with v := sipRound (if s.t = 0 then mixIn m s.v else s.v), t := s.t + 1 } := by
  rw [wordStep, if_pos (by exact h), countStep_eq]

theorem wordStep_done {m : Word} {after : State → State} {s : State} (h : s.cr.toNat ≤ s.t) :
    wordStep m after s = after { s with v := mixOut m s.v, t := 0 } := by
  rw [wordStep, if_neg (by exact Nat.not_lt.2 h)]
  rfl

theorem finalStep_round {s : State} (h : s.t < s.fr.toNat) :
    finalStep s = { s with v := sipRound (if s.t = 0 then finalMix s.v else s.v), t := s.t + 1 } := by
  rw [finalStep, if_pos (by exact h), countStep_eq]

theorem finalStep_done {s : State} (h : s.fr.toNat ≤ s.t) :
    finalStep s = { s with phase := .idle, responses := s.responses ++ [⟨0, digestWord s.v⟩] } := by
  rw [finalStep, if_neg (by exact Nat.not_lt.2 h)]
  rfl

/-- What one count of the sequencer can answer: the engine's registers rewritten, the phase the same or the next; or from
`FINAL` the end of the `FINALIZE`, with its response; or the fault of a byte that holds no value. -/
theorem sequencerStep_cases {s : State} (hp : s.phase ≠ .idle) :
    (∃ v p j t, (p = s.phase ∨ (s.phase, p) ∈ [(Phase.init, .blocks), (.blocks, .trail), (.trail, .final)]) ∧
      p ≠ .idle ∧ sequencerStep s = .ok { s with v := v, phase := p, j := j, t := t }) ∨
    (s.phase = .final ∧
      sequencerStep s = .ok { s with phase := .idle, responses := s.responses ++ [⟨0, digestWord s.v⟩] }) ∨
    sequencerStep s = .error .noByte := by
  rcases hs : s.phase with _ | _ | _ | _ | _
  · exact absurd hs hp
  · exact .inl ⟨initV s.k0 s.k1, .blocks, 0, 0, by simp, by simp, by
      simp [sequencerStep, hs, initPhase, State.setPhase, State.setV, State.setJ, State.setT]⟩
  · by_cases hj : s.j < s.bufLen / 8
    · have hr := memRead_inside (s := s) (a := 8 * s.j) (n := 8) (by omega)
      rcases readBytes_cases s.buf (8 * s.j) 8 with ⟨bs, e, -, -⟩ | ⟨e, -⟩
      · have hb : blockWord s s.j = .ok (le64 bs) := by simp [blockWord, hr, e]
        rcases Nat.lt_or_ge s.t s.cr.toNat with ht | ht
        · exact .inl ⟨sipRound (if s.t = 0 then mixIn (le64 bs) s.v else s.v), .blocks, s.j, s.t + 1, by simp, by simp, by
            simp only [sequencerStep, hs, blocksStep, if_pos hj, hb, wordStep_round ht]⟩
        · exact .inl ⟨mixOut (le64 bs) s.v, .blocks, s.j + 1, 0, by simp, by simp, by
            simp only [sequencerStep, hs, blocksStep, if_pos hj, hb, wordStep_done ht, State.setJ]⟩
      · exact .inr (.inr (by simp [sequencerStep, hs, blocksStep, hj, blockWord, hr, e]))
    · exact .inl ⟨s.v, .trail, s.j, 0, by simp, by simp, by
        simp [sequencerStep, hs, blocksStep, hj, State.setPhase, State.setT]⟩
  · rcases trailWord_cases s with ⟨w, e⟩ | e
    · rcases Nat.lt_or_ge s.t s.cr.toNat with ht | ht
      · exact .inl ⟨sipRound (if s.t = 0 then mixIn w s.v else s.v), .trail, s.j, s.t + 1, by simp, by simp, by
          simp only [sequencerStep, hs, trailStep, e, wordStep_round ht]⟩
      · exact .inl ⟨mixOut w s.v, .final, s.j, 0, by simp, by simp, by
          simp only [sequencerStep, hs, trailStep, e, wordStep_done ht, State.setPhase]⟩
    · exact .inr (.inr (by simp [sequencerStep, hs, trailStep, e]))
  · rcases Nat.lt_or_ge s.t s.fr.toNat with ht | ht
    · exact .inl ⟨sipRound (if s.t = 0 then finalMix s.v else s.v), .final, s.j, s.t + 1, by simp, by simp, by
        simp only [sequencerStep, hs, finalStep_round ht]⟩
    · exact .inr (.inl ⟨rfl, by simp only [sequencerStep, hs, finalStep_done ht]⟩)

end Sys2Proof.Machine
end

