-- ==== Sys2Proof/Laws/Message.lean ====
section
/-! SUPPORT. What the sequencer's reads and loops compute when the buffer holds a message: the message's own words and
chain (43_finalize R112 to R114, R122). -/

namespace Sys2Proof.Safety

open Sys2Proof.Machine

/-- Reading inside a held message gives that part of the message. -/
theorem memRead_holds {s : State} {M : List Byte} (h : holds s M) {a n : Nat} (hn : a + n ≤ M.length) :
    memRead s a n = .ok ((M.drop a).take n) := by
  have hl : ((M.drop a).take n).length = n := by simp; omega
  rw [memRead_inside (by rw [h.1]; exact hn)]
  have := readBytes_ok (m := s.buf) (a := a) (bs := (M.drop a).take n) fun i hi => by
    rw [h.2 (a + i) (by omega)]
    simp
  rwa [hl] at this

theorem blockWord_holds {s : State} {M : List Byte} (h : holds s M) {j : Nat} (hj : j < M.length / 8) :
    blockWord s j = .ok (messageWord M j) := by
  simp only [blockWord, memRead_holds h (a := 8 * j) (n := 8) (by omega), messageWord]

theorem trailWord_holds {s : State} {M : List Byte} (h : holds s M) : trailWord s = .ok (messageTrail M) := by
  have he : M.length - M.length % 8 = 8 * (M.length / 8) := by omega
  have ht : (M.drop (8 * (M.length / 8))).take (M.length % 8) = M.drop (8 * (M.length / 8)) := by
    apply List.take_of_length_le
    simp
    omega
  have := memRead_holds h (a := 8 * (M.length / 8)) (n := M.length % 8) (by omega)
  simp only [trailWord, h.1, he, this, ht, messageTrail]

/-- The block loop carries `V` along the chain of the message held. -/
theorem runBlocks_holds {s : State} {M : List Byte} (h : holds s M) {k0 k1 : Word} (k : Nat)
    (hj : s.j + k ≤ M.length / 8) (hv : s.v = chain s.cr.toNat k0 k1 M s.j) :
    ∃ t, runBlocks k s = .ok { s with v := chain s.cr.toNat k0 k1 M (s.j + k), t := t, j := s.j + k } := by
  induction k generalizing s with
  | zero => exact ⟨s.t, by rw [runBlocks, Nat.add_zero, ← hv]⟩
  | succ k ih =>
    simp only [runBlocks, blockWord_holds h (show s.j < M.length / 8 by omega), seqCompress_eq]
    obtain ⟨t, e⟩ := ih (s := State.setJ (s.j + 1)
        { s with v := compressWord s.cr.toNat (messageWord M s.j) s.v, t := s.cr.toNat })
      ⟨h.1, h.2⟩ (by simp only [State.setJ]; omega) (by simp only [State.setJ, chain, hv])
    refine ⟨t, ?_⟩
    simp only [State.setJ] at e ⊢
    rw [e, show s.j + (k + 1) = s.j + 1 + k by omega]

end Sys2Proof.Safety
end

