-- ==== Sys2Proof/Laws/Step.lean ====
section
/-! SUPPORT. What a command and a step can do, said once. -/

namespace Sys2Proof.Machine

/-- Raising an error of `NEW` on a consumed staging: the instance is gone and the response names the error. -/
theorem takeException_new {e : ErrorCode} (s : State) (h : e = .invalidKeyLength ∨ e = .invalidRoundCount) :
    takeException e (s.setKeyCnt 0) =
      { s with keyCnt := 0, configured := false, bufLen := 0, responses := s.responses ++ [⟨e.code, 0⟩] } := by
  rcases h with rfl | rfl <;> rfl

/-- Raising any other error changes nothing but the responses. -/
theorem takeException_other {e : ErrorCode} (s : State)
    (h : e = .notConstructed ∨ e = .bufferFull ∨ e = .illegalCommand) :
    takeException e s = { s with responses := s.responses ++ [⟨e.code, 0⟩] } := by
  rcases h with rfl | rfl | rfl <;> rfl

/-- With a `FINALIZE` in progress and no hardware reset, a step goes on with it, whatever is presented. -/
theorem step_inProgress {s : State} (hp : s.phase ≠ .idle) (hq : ∀ rest, s.inbox ≠ .hreset :: rest) :
    step s = continueFinalize s := by
  rcases h : s.inbox with _ | ⟨_ | _, rest⟩
  · simp [step, takeEvent, h, cmdReady, hp]
  · simp [step, takeEvent, h, cmdReady, hp]
  · exact absurd h (hq rest)

theorem continueFinalize_next {s t : State} (h : continueFinalize s = .next t) : sequencerStep s = .ok t := by
  unfold continueFinalize at h
  split at h
  · cases h
  · rename_i u hu
    cases h
    exact hu

/-- What a step can do when it answers a next state: nothing presented and nothing done; a hardware reset; an illegal
word answered with its error; an accepted command executed; or one count of a `FINALIZE` in progress. -/
theorem step_cases {s t : State} (h : step s = .next t) :
    (s.inbox = [] ∧ s.phase = .idle ∧ t = s) ∨
    (∃ rest, s.inbox = .hreset :: rest ∧ t = hardwareReset (s.setInbox rest)) ∨
    (∃ w rest e, s.inbox = .command w :: rest ∧ s.phase = .idle ∧ decode w = .error e ∧
      t = takeException .illegalCommand (s.setInbox rest)) ∨
    (∃ w rest i, s.inbox = .command w :: rest ∧ s.phase = .idle ∧ decode w = .ok i ∧
      exec i (s.setInbox rest) = .next t) ∨
    (s.phase ≠ .idle ∧ (∀ rest, s.inbox ≠ .hreset :: rest) ∧ sequencerStep s = .ok t) := by
  rcases hq : s.inbox with _ | ⟨_ | _, rest⟩
  · by_cases hp : s.phase = .idle
    · exact .inl ⟨rfl, hp, by simpa [step, takeEvent, hq, cmdReady, hp] using h.symm⟩
    · rw [step_inProgress hp (by simp [hq])] at h
      exact .inr (.inr (.inr (.inr ⟨hp, by simp, continueFinalize_next h⟩)))
  · rename_i w
    by_cases hp : s.phase = .idle
    · rcases hd : decode w with e | i
      · exact .inr (.inr (.inl ⟨w, rest, e, rfl, hp, hd, by
          simpa [step, takeEvent, hq, cmdReady, hp, hd] using h.symm⟩))
      · exact .inr (.inr (.inr (.inl ⟨w, rest, i, rfl, hp, hd, by
          simpa [step, takeEvent, hq, cmdReady, hp, hd] using h⟩)))
    · rw [step_inProgress hp (by simp [hq])] at h
      exact .inr (.inr (.inr (.inr ⟨hp, by simp, continueFinalize_next h⟩)))
  · exact .inr (.inl ⟨rest, rfl, by simpa [step, takeEvent, hq] using h.symm⟩)

end Sys2Proof.Machine
end

