-- ==== Sys2Proof/Laws/Commands.lean ====
section
/-! SUPPORT. What each command answers, branch by branch, in terms of the shared operations: cited instead of unfolding
a meaning. -/

namespace Sys2Proof.Machine

open Sys2Proof.Safety

theorem roundCount_eq_zero (c : Byte) : roundCount c = 0 ↔ c = 0 := by
  simp [roundCount, BitVec.toNat_eq]

theorem exec_keypush_stored (b : Byte) {s : State} (h : s.keyCnt < 16) :
    exec (.keypush b) s = .next ((s.stageByte s.keyCnt h b).setKeyCnt (s.keyCnt + 1)).respondOk := by
  simp only [exec, execKeypush, pushKeyByte, dif_pos h]

theorem exec_keypush_dropped (b : Byte) {s : State} (h : 16 ≤ s.keyCnt) :
    exec (.keypush b) s = .next (s.setKeyCnt 17).respondOk := by
  simp only [exec, execKeypush, pushKeyByte, dif_neg (Nat.not_lt.2 h)]

theorem exec_new_badLength (c d : Byte) {s : State} (h : s.keyCnt ≠ 16) :
    exec (.new c d) s = .next (takeException .invalidKeyLength (s.setKeyCnt 0)) := by
  simp only [exec, execNew, newError, if_pos h]

theorem exec_new_badRounds {c d : Byte} {s : State} (h : s.keyCnt = 16) (hz : c = 0 ∨ d = 0) :
    exec (.new c d) s = .next (takeException .invalidRoundCount (s.setKeyCnt 0)) := by
  simp only [exec, execNew, newError, h, ne_eq, not_true_eq_false, if_false, roundCount_eq_zero, if_pos hz]

theorem exec_new_valid {c d : Byte} {s : State} (h : s.keyCnt = 16) (hc : c ≠ 0) (hd : d ≠ 0) :
    exec (.new c d) s = .next ((s.setKeyCnt 0).install (keyHalves s.ks) c d).respondOk := by
  simp only [exec, execNew, newError, h, ne_eq, not_true_eq_false, if_false, roundCount_eq_zero, hc, hd, or_self]

theorem exec_append_notConstructed (b : Byte) {s : State} (h : s.configured = false) :
    exec (.append b) s = .next (takeException .notConstructed s) := by
  simp only [exec, execAppend, appendError, instanceError, h, Bool.false_eq_true, if_false]

theorem exec_append_full (b : Byte) {s : State} (h : s.configured = true) (hf : s.bufCap = some s.bufLen) :
    exec (.append b) s = .next (takeException .bufferFull s) := by
  simp only [exec, execAppend, appendError, instanceError, h, if_true, if_pos hf]

theorem exec_append_stored (b : Byte) {s : State} (h : s.configured = true)
    (hr : ∀ c, s.bufCap = some c → s.bufLen < c) : exec (.append b) s = .next (s.storeByte b).respondOk := by
  have hf : s.bufCap ≠ some s.bufLen := fun e => absurd (hr _ e) (Nat.lt_irrefl _)
  have hb : bufHas s.bufCap s.bufLen = true := by
    cases hc : s.bufCap with
    | none => rfl
    | some c => simpa [bufHas] using hr c hc
  simp only [exec, execAppend, appendError, instanceError, h, if_true, if_neg hf, hb]

theorem exec_reset_notConstructed {s : State} (h : s.configured = false) :
    exec .reset s = .next (takeException .notConstructed s) := by
  simp only [exec, execReset, instanceError, h, Bool.false_eq_true, if_false]

theorem exec_reset_constructed {s : State} (h : s.configured = true) : exec .reset s = .next s.clearBuf.respondOk := by
  simp only [exec, execReset, instanceError, h, if_true]

theorem exec_finalize_notConstructed {s : State} (h : s.configured = false) :
    exec .finalize s = .next (takeException .notConstructed s) := by
  simp only [exec, execFinalize, instanceError, h, Bool.false_eq_true, if_false]

/-- The phases over a held message leave the message's four final words. -/
theorem runPhases_holds {s : State} {M : List Byte} (h : holds s M) :
    runPhases s = .ok { s with
      v := sipFinal s.cr.toNat s.fr.toNat s.k0 s.k1 M, phase := .idle, j := s.bufLen / 8, t := s.fr.toNat } := by
  obtain ⟨t, e⟩ := runBlocks_holds (s := ((initPhase s).setPhase .blocks).setJ 0) (M := M) ⟨h.1, h.2⟩
    (k0 := s.k0) (k1 := s.k1) (s.bufLen / 8) (by simp [h.1]) rfl
  have e' : blocksPhase (initPhase s) = _ := e
  generalize hu : ({ ((initPhase s).setPhase .blocks).setJ 0 with
      v := chain (((initPhase s).setPhase .blocks).setJ 0).cr.toNat s.k0 s.k1 M
        ((((initPhase s).setPhase .blocks).setJ 0).j + s.bufLen / 8),
      t := t, j := (((initPhase s).setPhase .blocks).setJ 0).j + s.bufLen / 8 } : State) = u at e'
  have hh : holds u M := by subst hu; exact h
  simp only [runPhases, e', trailPhase, trailWord_holds hh, seqCompress_eq, finalPhase_eq, State.setPhase]
  subst hu
  simp [State.setJ, State.setPhase, initPhase, State.setV, sipFinal, h.1]

theorem exec_finalize_of_phases {s u : State} (hc : s.configured = true) (h : runPhases s = .ok u) :
    exec .finalize s = .next (u.respond 0 (digestWord u.v)) := by
  simp only [exec, execFinalize, instanceError, hc, if_true, h]

/-- A `FINALIZE` that answers a next state with an instance has rewritten the engine's registers and nothing else. -/
theorem exec_finalize_constructed {s t : State} (hc : s.configured = true) (h : exec .finalize s = .next t) :
    ∃ v, runPhases s = .ok { s with v := v, phase := .idle, j := s.bufLen / 8, t := s.fr.toNat } ∧
      t = { s with
        v := v, phase := .idle, j := s.bufLen / 8, t := s.fr.toNat,
        responses := s.responses ++ [⟨0, digestWord v⟩] } := by
  rcases runPhases_cases s with ⟨v, e⟩ | e
  · refine ⟨v, e, ?_⟩
    rw [exec_finalize_of_phases hc e] at h
    exact (Host.Outcome.next.inj h).symm
  · simp [exec, execFinalize, instanceError, hc, e] at h

/-- When every byte below `BUFLEN` holds a value, the buffer holds a message. -/
theorem holds_of_isSome {s : State} (h : ∀ a, a < s.bufLen → (s.buf.read a).isSome = true) : ∃ M, holds s M :=
  ⟨List.ofFn fun i : Fin s.bufLen => (s.buf.read i).get (h i i.isLt), by simp, fun a ha => by simp⟩

/-- What a command can do when it answers a next state: one of its ways to succeed or one of its errors, with the whole
next state. -/
theorem exec_cases {i : Instr} {s t : State} (h : exec i s = .next t) :
    (i = .keyclr ∧ t = { s with keyCnt := 0, responses := s.responses ++ [⟨0, 0⟩] }) ∨
    (∃ b, ∃ hk : s.keyCnt < 16, i = .keypush b ∧ t = { s with
      ks := s.ks.set s.keyCnt b hk, keyCnt := s.keyCnt + 1, responses := s.responses ++ [⟨0, 0⟩] }) ∨
    (∃ b, 16 ≤ s.keyCnt ∧ i = .keypush b ∧ t = { s with keyCnt := 17, responses := s.responses ++ [⟨0, 0⟩] }) ∨
    (∃ c d, s.keyCnt ≠ 16 ∧ i = .new c d ∧ t = { s with
      keyCnt := 0, configured := false, bufLen := 0, responses := s.responses ++ [⟨1, 0⟩] }) ∨
    (∃ c d, s.keyCnt = 16 ∧ (c = 0 ∨ d = 0) ∧ i = .new c d ∧ t = { s with
      keyCnt := 0, configured := false, bufLen := 0, responses := s.responses ++ [⟨2, 0⟩] }) ∨
    (∃ c d, s.keyCnt = 16 ∧ c ≠ 0 ∧ d ≠ 0 ∧ i = .new c d ∧ t = { s with
      keyCnt := 0, configured := true, bufLen := 0, cr := c, fr := d, k0 := (keyHalves s.ks).1,
      k1 := (keyHalves s.ks).2, responses := s.responses ++ [⟨0, 0⟩] }) ∨
    (((∃ b, i = .append b) ∨ i = .reset ∨ i = .finalize) ∧ s.configured = false ∧
      t = { s with responses := s.responses ++ [⟨3, 0⟩] }) ∨
    (∃ b, i = .append b ∧ s.configured = true ∧ s.bufCap = some s.bufLen ∧
      t = { s with responses := s.responses ++ [⟨4, 0⟩] }) ∨
    (∃ b, i = .append b ∧ s.configured = true ∧ (∀ c, s.bufCap = some c → s.bufLen < c) ∧ t = { s with
      buf := s.buf.write s.bufLen b, bufLen := s.bufLen + 1, responses := s.responses ++ [⟨0, 0⟩] }) ∨
    (i = .reset ∧ s.configured = true ∧ t = { s with bufLen := 0, responses := s.responses ++ [⟨0, 0⟩] }) ∨
    (i = .finalize ∧ s.configured = true ∧ ∃ v,
      runPhases s = .ok { s with v := v, phase := .idle, j := s.bufLen / 8, t := s.fr.toNat } ∧
      t = { s with
        v := v, phase := .idle, j := s.bufLen / 8, t := s.fr.toNat,
        responses := s.responses ++ [⟨0, digestWord v⟩] }) := by
  cases i with
  | keyclr => exact .inl ⟨rfl, (Host.Outcome.next.inj h).symm⟩
  | keypush b =>
    rcases Nat.lt_or_ge s.keyCnt 16 with hk | hk
    · rw [exec_keypush_stored b hk] at h
      exact .inr (.inl ⟨b, hk, rfl, (Host.Outcome.next.inj h).symm⟩)
    · rw [exec_keypush_dropped b hk] at h
      exact .inr (.inr (.inl ⟨b, hk, rfl, (Host.Outcome.next.inj h).symm⟩))
  | new c d =>
    by_cases hk : s.keyCnt = 16
    · by_cases hz : c = 0 ∨ d = 0
      · rw [exec_new_badRounds hk hz] at h
        exact .inr (.inr (.inr (.inr (.inl ⟨c, d, hk, hz, rfl, (Host.Outcome.next.inj h).symm⟩))))
      · obtain ⟨hc, hd⟩ := not_or.1 hz
        rw [exec_new_valid hk hc hd] at h
        exact .inr (.inr (.inr (.inr (.inr (.inl ⟨c, d, hk, hc, hd, rfl, (Host.Outcome.next.inj h).symm⟩)))))
    · rw [exec_new_badLength c d hk] at h
      exact .inr (.inr (.inr (.inl ⟨c, d, hk, rfl, (Host.Outcome.next.inj h).symm⟩)))
  | append b =>
    by_cases hc : s.configured = true
    rotate_left
    · have hc : s.configured = false := by simpa using hc
      rw [exec_append_notConstructed b hc] at h
      refine .inr (.inr (.inr (.inr (.inr (.inr (.inl ⟨.inl ⟨b, rfl⟩, hc, ?_⟩))))))
      exact (Host.Outcome.next.inj h).symm.trans (takeException_other s (.inl rfl))
    · by_cases hf : s.bufCap = some s.bufLen
      · rw [exec_append_full b hc hf] at h
        refine .inr (.inr (.inr (.inr (.inr (.inr (.inr (.inl ⟨b, rfl, hc, hf, ?_⟩)))))))
        exact (Host.Outcome.next.inj h).symm.trans (takeException_other s (.inr (.inl rfl)))
      · by_cases hb : bufHas s.bufCap s.bufLen = true
        · have hr : ∀ c, s.bufCap = some c → s.bufLen < c := fun c e => by simpa [bufHas, e] using hb
          rw [exec_append_stored b hc hr] at h
          exact .inr (.inr (.inr (.inr (.inr (.inr (.inr (.inr (.inl
            ⟨b, rfl, hc, hr, (Host.Outcome.next.inj h).symm⟩))))))))
        · simp [exec, execAppend, appendError, instanceError, hc, hf, hb] at h
  | reset =>
    by_cases hc : s.configured = true
    rotate_left
    · have hc : s.configured = false := by simpa using hc
      rw [exec_reset_notConstructed hc] at h
      refine .inr (.inr (.inr (.inr (.inr (.inr (.inl ⟨.inr (.inl rfl), hc, ?_⟩))))))
      exact (Host.Outcome.next.inj h).symm.trans (takeException_other s (.inl rfl))
    · rw [exec_reset_constructed hc] at h
      exact .inr (.inr (.inr (.inr (.inr (.inr (.inr (.inr (.inr (.inl
        ⟨rfl, hc, (Host.Outcome.next.inj h).symm⟩)))))))))
  | finalize =>
    by_cases hc : s.configured = true
    rotate_left
    · have hc : s.configured = false := by simpa using hc
      rw [exec_finalize_notConstructed hc] at h
      refine .inr (.inr (.inr (.inr (.inr (.inr (.inl ⟨.inr (.inr rfl), hc, ?_⟩))))))
      exact (Host.Outcome.next.inj h).symm.trans (takeException_other s (.inl rfl))
    · exact .inr (.inr (.inr (.inr (.inr (.inr (.inr (.inr (.inr (.inr
        ⟨rfl, hc, exec_finalize_constructed hc h⟩)))))))))

end Sys2Proof.Machine
end

