-- ==== Sys2Proof/Laws/Decode.lean ====
section
/-! SUPPORT. The fields of a command word (30_encoding R52): what a packed word's fields are, and that a word with a
zero reserved field is its fields packed. -/

namespace Sys2Proof

@[simp] theorem opcOf_packWord (o c d : Byte) : opcOf (packWord o c d) = o := by
  apply BitVec.eq_of_getElem_eq
  intro i hi
  simp only [opcOf, packWord, BitVec.getElem_extractLsb', BitVec.getLsbD_append]
  interval_cases i <;> simp

@[simp] theorem rsvOf_packWord (o c d : Byte) : rsvOf (packWord o c d) = 0 := by
  apply BitVec.eq_of_getElem_eq
  intro i hi
  simp only [rsvOf, packWord, BitVec.getElem_extractLsb', BitVec.getLsbD_append]
  interval_cases i <;> simp

@[simp] theorem imm1Of_packWord (o c d : Byte) : imm1Of (packWord o c d) = c := by
  apply BitVec.eq_of_getElem_eq
  intro i hi
  simp only [imm1Of, packWord, BitVec.getElem_extractLsb', BitVec.getLsbD_append]
  interval_cases i <;> simp

@[simp] theorem imm0Of_packWord (o c d : Byte) : imm0Of (packWord o c d) = d := by
  apply BitVec.eq_of_getElem_eq
  intro i hi
  simp only [imm0Of, packWord, BitVec.getElem_extractLsb', BitVec.getLsbD_append]
  interval_cases i <;> simp

theorem packWord_fields {w : CmdWord} (h : rsvOf w = 0) : packWord (opcOf w) (imm1Of w) (imm0Of w) = w := by
  have h' : opcOf w ++ rsvOf w ++ imm1Of w ++ imm0Of w = w := by
    apply BitVec.eq_of_getLsbD_eq
    intro i hi
    simp only [opcOf, rsvOf, imm1Of, imm0Of, BitVec.getLsbD_append, BitVec.getLsbD_extractLsb']
    interval_cases i <;> simp
  rw [h] at h'
  exact h'

/-- A word that a row of the opcode map selects has the opcode of the row's pattern, where the row's mask covers the
opcode field. -/
theorem opcOf_of_selects {r : CmdRow} {w : CmdWord} (hm : opcOf r.mask = BitVec.allOnes 8)
    (h : r.selects w = true) : opcOf w = opcOf r.pattern := by
  have e : w &&& r.mask = r.pattern := by simpa [CmdRow.selects] using h
  have hf : opcOf (w &&& r.mask) = opcOf w &&& opcOf r.mask := by
    apply BitVec.eq_of_getElem_eq
    intro i hi
    simp [opcOf]
  rw [← e, hf, hm, BitVec.and_allOnes]

end Sys2Proof
end

