-- ==== Sys2Proof/Laws/PerInstr.lean ====
section
/-! SUPPORT. Statements about every command as syntax, one lemma per constructor. -/

namespace Sys2Proof.Laws.Selected

/-- The mnemonic of a command, as the opcode map spells it (30_encoding R54). -/
def mnemonicOf : Instr → String
  | .keyclr => "KEYCLR"
  | .keypush _ => "KEYPUSH"
  | .new _ _ => "NEW"
  | .append _ => "APPEND"
  | .reset => "RESET"
  | .finalize => "FINALIZE"

/-- The word of a command selects its own row of the opcode map and no other (R54). -/
def Statement (i : Instr) : Prop := selectedBy (encode i) = [mnemonicOf i]

theorem keyclr : Statement .keyclr := by unfold Statement; decide

theorem keypush (b : Byte) : Statement (.keypush b) := by
  unfold Statement
  revert b
  decide

theorem new_selects (c d : Byte) : encode (.new c d) &&& 0xFFFF0000#32 = 0x03000000#32 := by
  apply BitVec.eq_of_getLsbD_eq
  intro i hi
  simp only [encode, packWord, BitVec.getLsbD_and, BitVec.getLsbD_append]
  interval_cases i <;> simp

theorem new_selects_no_other {r : CmdRow} (c d : Byte) (hm : opcOf r.mask = BitVec.allOnes 8)
    (hp : opcOf r.pattern ≠ 0x03#8) : r.selects (encode (.new c d)) = false := by
  refine Bool.eq_false_iff.2 fun h => hp ?_
  exact (opcOf_of_selects hm h).symm.trans (opcOf_packWord _ _ _)

theorem new (c d : Byte) : Statement (.new c d) := by
  have hn : CmdRow.selects ⟨"NEW", 0x03000000#32, 0xFFFF0000#32⟩ (encode (.new c d)) = true := by
    simp [CmdRow.selects, new_selects]
  unfold Statement selectedBy cmdTable
  simp only [List.filter_cons, List.filter_nil, hn]
  rw [new_selects_no_other c d (by decide) (by decide), new_selects_no_other c d (by decide) (by decide),
    new_selects_no_other c d (by decide) (by decide), new_selects_no_other c d (by decide) (by decide),
    new_selects_no_other c d (by decide) (by decide)]
  rfl

theorem append (b : Byte) : Statement (.append b) := by
  unfold Statement
  revert b
  decide

theorem reset : Statement .reset := by unfold Statement; decide

theorem finalize : Statement .finalize := by unfold Statement; decide

end Sys2Proof.Laws.Selected
end

