-- ==== Sys2Proof/Laws/Runs.lean ====
section
/-! SUPPORT. Commands in a row, and what every command leaves to the port. -/

namespace Sys2Proof.Safety

open Sys2Proof.Machine

/-- Commands in a row run one part after the other. -/
theorem execAll_append {a b : List Instr} {s t : State} (h : execAll a s = .next t) :
    execAll (a ++ b) s = execAll b t := by
  induction a generalizing s with
  | nil => cases h; rfl
  | cons i a ih =>
    simp only [execAll, List.cons_append] at h ⊢
    cases hi : exec i s with
    | next u =>
      simp only [hi] at h ⊢
      exact ih h
    | fault f => simp [hi] at h
    | refused f => simp [hi] at h

/-- A command takes nothing from the inbox, answers once and leaves an idle sequencer idle. -/
theorem exec_port {i : Instr} {s t : State} (h : exec i s = .next t) :
    t.inbox = s.inbox ∧ (∃ r, t.responses = s.responses ++ [r]) ∧ (s.phase = .idle → t.phase = .idle) := by
  rcases exec_cases h with ⟨-, rfl⟩ | ⟨b, hk, -, rfl⟩ | ⟨b, hk, -, rfl⟩ | ⟨c, d, hk, -, rfl⟩ | ⟨c, d, hk, hz, -, rfl⟩ |
    ⟨c, d, hk, hc, hd, -, rfl⟩ | ⟨-, hc, rfl⟩ | ⟨b, -, hc, hf, rfl⟩ | ⟨b, -, hc, hf, rfl⟩ | ⟨-, hc, rfl⟩ |
    ⟨-, hc, v, -, rfl⟩ <;>
  exact ⟨rfl, ⟨_, rfl⟩, fun h => by simp [h]⟩

end Sys2Proof.Safety
end

