-- ==== Sys2Proof/Laws/Words.lean ====
section
/-! SUPPORT. The byte lanes of a word (00_scope R9, 20_memory R34 to R38) and that rotations undo each other (R8). -/

namespace Sys2Proof.Machine

/-- Two words with the same eight byte lanes are the same word. -/
theorem word_ext_lanes {x y : Word} (h : ∀ i, i < 8 → x.extractLsb' (8 * i) 8 = y.extractLsb' (8 * i) 8) : x = y := by
  apply BitVec.eq_of_getLsbD_eq
  intro i hi
  have := congrArg (fun b => b.getLsbD (i % 8)) (h (i / 8) (by omega))
  simpa only [BitVec.getLsbD_extractLsb', show i % 8 < 8 from Nat.mod_lt _ (by decide), decide_true, Bool.true_and,
    Nat.div_add_mod] using this

theorem lane_or (x y : Word) (i : Nat) :
    (x ||| y).extractLsb' (8 * i) 8 = x.extractLsb' (8 * i) 8 ||| y.extractLsb' (8 * i) 8 := by
  apply BitVec.eq_of_getElem_eq
  intro k hk
  simp [BitVec.getElem_extractLsb']

/-- A byte moved to lane `j` is found in lane `j` and nowhere else. -/
theorem lane_shift (b : Byte) {i j : Nat} (hi : i < 8) :
    (b.setWidth 64 <<< (8 * j)).extractLsb' (8 * i) 8 = if i = j then b else 0 := by
  apply BitVec.eq_of_getElem_eq
  intro k hk
  simp only [BitVec.getElem_extractLsb', BitVec.getLsbD_shiftLeft, BitVec.getLsbD_setWidth]
  have h64 : 8 * i + k < 64 := by omega
  rcases Nat.lt_trichotomy i j with h | rfl | h
  · simp [h64, show 8 * i + k < 8 * j by omega, show i ≠ j by omega]
  · simp [h64, BitVec.getLsbD_eq_getElem hk, show k < 64 by omega]
  · have ho : b.getLsbD (8 * i + k - 8 * j) = false := BitVec.getLsbD_of_ge _ _ (by omega)
    simp [ho, show i ≠ j by omega]

/-- Rotating on by what is missing to 64 gives the word back. -/
theorem rotl64_rotl64 (n : Word) {k : Nat} (h1 : 1 ≤ k) (h2 : k ≤ 63) : rotl64 (rotl64 n k) (64 - k) = n := by
  apply BitVec.eq_of_getLsbD_eq
  intro i hi
  simp only [rotl64, BitVec.getLsbD_or, BitVec.getLsbD_shiftLeft, BitVec.getLsbD_ushiftRight]
  have ho := BitVec.getLsbD_of_ge n (64 - k + (64 - (64 - k) + i)) (by omega)
  rcases Nat.lt_or_ge i (64 - k) with h | h
  · simp [h, show ¬ 64 - (64 - k) + i < k by omega, show 64 - (64 - k) + i < 64 by omega,
      show 64 - (64 - k) + i - k = i by omega, ho]
  · simp [hi, show ¬ i < 64 - k by omega, show i - (64 - k) < k by omega, show i - (64 - k) < 64 by omega,
      show 64 - k + (i - (64 - k)) = i by omega, ho]
    intro _ _
    omega

end Sys2Proof.Machine
end

