-- ==== Sys2Proof/Tests/Slice0.lean ====
section
/-! SUPPORT. Tests of one step or one operation each, and a witness for every statement that has hypotheses. Expected
values come from spec/95_test_vectors (the section is named) or by hand from the rule named, never from the model. -/

namespace Sys2Proof.Tests

open Sys2Proof.Machine Sys2Proof.Safety

/-! ## Helpers -/

/-- A state with `n` key bytes counted; `KS` is `00 01 .. 0f`. -/
def staged (n : Nat) : State := { State.resetWith none with ks := Vector.ofFn fun i => BitVec.ofNat 8 i.val, keyCnt := n }

/-- A buffer that holds the bytes of `M` from address 0. -/
def bufOf (M : List Byte) : Memory := M.zipIdx.map fun p => (p.2, p.1)

/-- An instance with key sixteen `00`, rounds (2,4), capacity `cap` and `M` in the buffer. -/
def built (cap : Option Nat) (M : List Byte) : State :=
  { State.resetWith cap with configured := true, cr := 2, fr := 4, buf := bufOf M, bufLen := M.length }

/-- An instance with key `00 01 .. 0f` (95 section 5), rounds (2,4), and `M` in the buffer. -/
def builtSeq (M : List Byte) : State :=
  { built none M with k0 := 0x0706050403020100#64, k1 := 0x0f0e0d0c0b0a0908#64 }

/-- The message `00 01 .. (n-1)` of 95 section 7. -/
def counting (n : Nat) : List Byte := (List.range n).map (BitVec.ofNat 8)

/-- A state with `q` presented by the host. -/
def offered (q : List PortEvent) (s : State) : State := { s with inbox := q }

/-- A `FINALIZE` in progress, at the start of phase `p`, with a `KEYCLR` waiting at the port. -/
def inPhase (p : Phase) (s : State) : State := { offered [.command 0x01000000#32] s with phase := p }

/-- The next state, where there is one. -/
def answer : Host.Outcome State Fault Refusal → Option State
  | .next t => some t
  | .fault _ => none
  | .refused _ => none

/-! ## Well-formed words and lines (30_encoding R54, R55, R60) -/

theorem test_legal_words : [0x01000000#32, 0x020000ff#32, 0x0300ffff#32, 0x040000ff#32, 0x05000000#32, 0x06000000#32].all
    legalWord = true := by decide
theorem test_illformed_reserved : legalWord 0x03010204#32 = false := by decide
theorem test_illformed_opcode_zero : legalWord 0x00000000#32 = false := by decide
theorem test_illformed_opcode_seven : legalWord 0x07000000#32 = false := by decide
theorem test_illformed_imm1 : [0x01000100#32, 0x02000100#32, 0x04000161#32, 0x05000100#32, 0x06000100#32].all
    (fun w => !legalWord w) = true := by decide
theorem test_illformed_imm0 : [0x01000001#32, 0x05000001#32, 0x06000001#32].all (fun w => !legalWord w) = true := by decide
theorem test_wellformed_lines : [SourceLine.keypush 255, .new 255 0, .append 255, .key [0, 255], .appends [255], .keyclr,
    .reset, .finalize, .new13, .new24, .keyzero].all SourceLine.wf = true := by decide
theorem test_illformed_keypush : (SourceLine.keypush 256).wf = false := by decide
theorem test_illformed_new_c : (SourceLine.new 256 4).wf = false := by decide
theorem test_illformed_new_d : (SourceLine.new 2 256).wf = false := by decide
theorem test_illformed_append : (SourceLine.append 256).wf = false := by decide
theorem test_illformed_key : (SourceLine.key [0, 256]).wf = false := by decide
theorem test_illformed_appends : (SourceLine.appends [256]).wf = false := by decide

/-! ## Decoding (30_encoding R52, R54): opcode, reserved field, `imm1`, `imm0`, written out bit by bit -/

theorem test_decode_keyclr : decode 0b00000001000000000000000000000000#32 = .ok .keyclr := by rfl
theorem test_decode_keypush : decode 0b00000010000000000000000010000001#32 = .ok (.keypush 0x81) := by rfl
theorem test_decode_new : decode 0b00000011000000000000000100000011#32 = .ok (.new 1 3) := by rfl
theorem test_decode_append : decode 0b00000100000000000000000001100001#32 = .ok (.append 0x61) := by rfl
theorem test_decode_reset : decode 0b00000101000000000000000000000000#32 = .ok .reset := by rfl
theorem test_decode_finalize : decode 0b00000110000000000000000000000000#32 = .ok .finalize := by rfl

/-! ## The six commands, one step each -/

/-- R70: the count goes to 0 even from 17; the response is `(0, 0)`. -/
theorem test_keyclr : answer (exec .keyclr (staged 17)) =
    some { staged 17 with keyCnt := 0, responses := [⟨0, 0⟩] } := by rfl

/-- R71: the 16th byte goes to `KS[15]`. -/
theorem test_keypush_sixteenth : (answer (exec (.keypush 0xaa) (staged 15))).map (fun t => (t.keyCnt, t.ks[15], t.ks[14])) =
    some (16, 0xaa, 0x0e) := by decide

/-- R71, R13: the 17th is dropped. -/
theorem test_keypush_seventeenth : (answer (exec (.keypush 0xaa) (staged 16))).map (fun t => (t.keyCnt, t.ks)) =
    some (17, (staged 16).ks) := by decide

/-- R72, R73; 95 section 5 gives the key halves. -/
theorem test_new_installs : (answer (exec (.new 2 4) (staged 16))).map
    (fun t => (t.k0, t.k1, t.cr, t.fr, t.configured, t.keyCnt)) =
    some (0x0706050403020100#64, 0x0f0e0d0c0b0a0908#64, 2, 4, true, 0) := by decide

/-- R131, R132, R138; 95 section 1 T7: a 15-byte and a 17-byte key, a count of 0, and both at once. -/
theorem test_new_refuses :
    [exec (.new 2 4) (staged 15), exec (.new 2 4) (staged 17), exec (.new 0 4) (staged 16), exec (.new 2 0) (staged 16),
      exec (.new 0 0) (staged 15)].map (fun o => (answer o).map fun t => (t.responses, t.configured, t.keyCnt)) =
    [some ([⟨1, 0⟩], false, 0), some ([⟨1, 0⟩], false, 0), some ([⟨2, 0⟩], false, 0), some ([⟨2, 0⟩], false, 0),
      some ([⟨1, 0⟩], false, 0)] := by decide

/-- R80: the byte lands at `BUFLEN`. -/
theorem test_append_stores : (answer (exec (.append 0x63) (built (some 4) [0x61, 0x62]))).map (fun t => (t.buf, t.bufLen)) =
    some ([(0, 0x61), (1, 0x62), (2, 0x63)], 3) := by decide

/-- R133, R134 (95 program P4 has `BUF_CAP = 4`): refused with no instance, and at four bytes. -/
theorem test_append_refuses : [exec (.append 0x61) (State.resetWith (some 0)),
    exec (.append 0x65) (built (some 4) [0x61, 0x62, 0x63, 0x64])].map
      (fun o => (answer o).map fun t => (t.responses, t.bufLen)) = [some ([⟨3, 0⟩], 0), some ([⟨4, 0⟩], 4)] := by decide

/-- R82. -/
theorem test_reset : (answer (exec .reset (builtSeq [0x61]))).map (fun t => (t.bufLen, t.configured, t.k0, t.cr)) =
    some (0, true, 0x0706050403020100#64, 2) := by decide

/-- 95 section 2: the golden fixture, both values. -/
theorem test_finalize_fixture : [exec .finalize (built none []), exec .finalize (built none [0x00])].map
    (fun o => (answer o).map State.responses) =
    [some [⟨0, 0x1e924b9d737700d7#64⟩], some [⟨0, 0x8b5a0baa49fbc58d#64⟩]] := by decide

/-- 95 section 5: the published value, with a full block and a trailing word of seven bytes. -/
theorem test_finalize_published : (answer (exec .finalize (builtSeq (counting 15)))).map
    (fun t => t.responses.map Response.digestBytes) =
    some [[0xa1, 0x29, 0xca, 0x61, 0x49, 0xbe, 0x45, 0xe5]] := by decide

/-- R51: a word presented while the final rounds are done stays at the port, and the step answers the `FINALIZE`:
95 section 4, the last row of the trace of the empty message. -/
theorem test_word_waits : (answer (step { inPhase .final (built none []) with
      t := 4
      v := ⟨0x4aad48c25c5f9069#64, 0xa32eee94879e255b#64, 0x4af430095c732a6a#64, 0xbde5ddc2f4c59f8f#64⟩ })).map
    (fun t => (t.inbox, t.phase, t.responses)) =
    some ([.command 0x01000000#32], .idle, [⟨0, 0x1e924b9d737700d7#64⟩]) := by decide

/-- 95 section 5 and section 3.3: the first count of block 0, from the state after `Init`. -/
theorem test_first_count : (answer (step { inPhase .blocks (builtSeq (counting 15)) with
      v := ⟨0x7469686173716475#64, 0x6b617f6d656e6665#64, 0x6b7f62616d677361#64, 0x7b6b696e727e6c7b#64⟩ })).map
    (fun t => (t.phase, t.j, t.t, t.v)) = some (.blocks, 0, 1,
      ⟨0x64668a929363847f#64, 0x4ed232083d9aa8dc#64, 0xf2f74892d8141a2e#64, 0x9290f9810552f4a8#64⟩) := by decide

/-! ## Operations -/

/-- 95 section 3.1. -/
theorem test_add64 : add64 0xffffffffffffffff#64 1 = 0 ∧
    add64 0x7469686173716475#64 0x6b617f6d656e6665#64 = 0xdfcae7ced8dfcada#64 := by decide

/-- 95 section 3.1. -/
theorem test_rotl64 : [13, 16, 17, 21, 32].map (rotl64 0x0123456789abcdef#64) =
    [0x68acf13579bde024#64, 0x456789abcdef0123#64, 0x8acf13579bde0246#64, 0xacf13579bde02468#64, 0x89abcdef01234567#64] := by
  decide

/-- 95 section 3.2. -/
theorem test_le64 : le64 (counting 8) = 0x0706050403020100#64 := by decide
/-- 95 section 3.2. -/
theorem test_bytes_be : bytesBe 0xa129ca6149be45e5#64 = [0xa1, 0x29, 0xca, 0x61, 0x49, 0xbe, 0x45, 0xe5] := by decide

/-- 95 section 3.3. -/
theorem test_sip_round :
    sipRound ⟨0x7469686173716475#64, 0x6b617f6d656e6665#64, 0x6b7f62616d677361#64, 0x7c6d6c6a717c6d7b#64⟩ =
    ⟨0x64668a929363847f#64, 0x4ed232083d9aa8dc#64, 0xf2f74892d8141a2e#64, 0x9290f9810552f4a8#64⟩ := by decide

/-- 95 section 3.5, the last two rows. -/
theorem test_compress_word :
    [1, 2].map (fun c => compressWord c 0x0706050403020100#64
      ⟨0x7469686173716475#64, 0x6b617f6d656e6665#64, 0x6b7f62616d677361#64, 0x7b6b696e727e6c7b#64⟩) =
    [⟨0x63608f969061857f#64, 0x4ed232083d9aa8dc#64, 0xf2f74892d8141a2e#64, 0x9290f9810552f4a8#64⟩,
     ⟨0x4a017198de0a59e0#64, 0x0d52f6f62a4f59a4#64, 0x634cb3577b01fd3d#64, 0xa5224d6f55c7d9c8#64⟩] := by decide

/-- 95 section 6: lengths 0, 3, 7, 8, 255, 256 and 257, with the leftover bytes. -/
theorem test_trail_place :
    [trailPlace 0 [], trailPlace 3 [0x61, 0x62, 0x63], trailPlace 7 (counting 7), trailPlace 8 [],
      trailPlace 255 [0xf8, 0xf9, 0xfa, 0xfb, 0xfc, 0xfd, 0xfe], trailPlace 256 [], trailPlace 257 [0x00]] =
    [0#64, 0x0300000000636261#64, 0x0706050403020100#64, 0x0800000000000000#64, 0xfffefdfcfbfaf9f8#64, 0#64,
      0x0100000000000000#64] := by decide

/-- 95 section 6: the two blocks of the buffer `00 .. 10`, and no third. -/
theorem test_block_word : [0, 1, 2].map (fun j => (blockWord (builtSeq (counting 17)) j).toOption) =
    [some 0x0706050403020100#64, some 0x0f0e0d0c0b0a0908#64, none] := by decide

/-- R60 to R63: a command with a comment, a preset, a chunk as text, an operand that is no byte. -/
theorem test_assemble :
    assembleLine ['N', 'E', 'W', ' ', '2', ',', ' ', '0', 'x', '0', '4', ' ', ';', 'x'] = some [.new 2 4] ∧
    assembleLine ['N', 'E', 'W', '1', '3'] = some [.new 1 3] ∧
    assembleLine ['A', 'P', 'P', 'E', 'N', 'D', 'S', ' ', quoteChar, 'a', ' ', ';', quoteChar] =
      some [.append 0x61, .append 0x20, .append 0x3b] ∧
    assembleLine ['A', 'P', 'P', 'E', 'N', 'D', ' ', '2', '5', '6'] = none := by decide

/-! ## Witnesses: for each statement with hypotheses, states and operands that meet them all, clause by clause -/

/-- The next state of a command that has one, with what is asked of it. -/
def goesTo (i : Instr) (s : State) (P : State → Prop) : Prop := ∃ t, exec i s = .next t ∧ P t

theorem witness_DecodeAndEncodeAgree : decode 0x0300ff00#32 = .ok (.new 255 0) := by rfl

theorem witness_OpcodeMapIsDisjointWith66051Words : ∃ r, r ∈ cmdTable ∧ r.selects 0x03ffffff#32 = false ∧
    r.selects 0x0300ffff#32 = true := ⟨⟨"NEW", 0x03000000#32, 0xFFFF0000#32⟩, by decide, by decide, by decide⟩

theorem witness_PseudoInstructionsExpandToTheirWords :
    (SourceLine.key [0, 255]).wf = true ∧ (SourceLine.appends [0, 255]).wf = true := by decide

theorem witness_RotationFollowsItsFormula : (1 ≤ 1 ∧ 1 ≤ 63) ∧ (1 ≤ 63 ∧ 63 ≤ 63) := by decide

theorem witness_ByteOrderPrimitivesPlaceEachByte :
    (counting 8).length = 8 ∧ 0 < (counting 8).length ∧ 7 < (counting 8).length ∧ 7 < 8 := by decide

theorem witness_KeyHalvesAreLittleEndianAndBijective : 0 < 8 ∧ 7 < 8 := by decide

theorem witness_BlockWordIsLittleEndian : 1 < (builtSeq (counting 16)).bufLen / 8 ∧
    ([8, 9, 10, 11, 12, 13, 14, 15] : List Byte).length = 8 ∧
    ∀ i, (h : i < [8, 9, 10, 11, 12, 13, 14, 15].length) →
      (builtSeq (counting 16)).buf.read (8 * 1 + i) = some ([8, 9, 10, 11, 12, 13, 14, 15] : List Byte)[i] := by decide

/-- Seven leftover bytes after a block: the third clause is then empty. -/
theorem witness_TrailWordLayout_seven :
    ([8, 9, 10, 11, 12, 13, 14] : List Byte).length = (builtSeq (counting 15)).bufLen % 8 ∧
    ∀ i, (h : i < [8, 9, 10, 11, 12, 13, 14].length) → (builtSeq (counting 15)).buf.read
      ((builtSeq (counting 15)).bufLen - (builtSeq (counting 15)).bufLen % 8 + i) =
        some ([8, 9, 10, 11, 12, 13, 14] : List Byte)[i] := by decide

/-- No leftover byte after a full block: the second clause is then empty, the third starts at lane 0. -/
theorem witness_TrailWordLayout_none :
    ([] : List Byte).length = (builtSeq (counting 8)).bufLen % 8 ∧ ([] : List Byte).length ≤ 0 ∧ 6 < 7 := by decide

theorem witness_ChainPrefixDeterminesTheDigest_prefix : 0 ≤ ([] : List Byte).length / 8 ∧ 1 ≤ (counting 8).length / 8 := by
  decide

/-- The second clause at a message of one block and one leftover byte, compared with itself. -/
theorem witness_ChainPrefixDeterminesTheDigest_digest :
    chain 2 0 0 (counting 9) ((counting 9).length / 8) = chain 2 0 0 (counting 9) ((counting 9).length / 8) ∧
    (counting 9).drop (8 * ((counting 9).length / 8)) = [8] ∧ (counting 9).length % 256 = 9 := ⟨rfl, by decide, by decide⟩

theorem witness_KeypushStagesOneByte : (staged 0).keyCnt < 16 ∧ (staged 15).keyCnt < 16 ∧ 16 ≤ (staged 16).keyCnt ∧
    16 ≤ (staged 17).keyCnt := by decide

theorem witness_NewConstructsAnInstance : (staged 15).keyCnt ≠ 16 ∧ (staged 17).keyCnt ≠ 16 ∧ (staged 16).keyCnt = 16 ∧
    ((0 : Byte) = 0 ∨ (4 : Byte) = 0) ∧ (1 : Byte) ≠ 0 ∧ (255 : Byte) ≠ 0 := by decide

theorem witness_AppendStoresOneByte : (State.resetWith none).configured = false ∧
    ((built (some 0) []).configured = true ∧ (built (some 0) []).bufCap = some (built (some 0) []).bufLen) ∧
    (built none []).configured = true ∧ (∀ c, (built none []).bufCap = some c → (built none []).bufLen < c) ∧
    ∀ c, (built (some 1) []).bufCap = some c → (built (some 1) []).bufLen < c :=
  ⟨rfl, ⟨rfl, rfl⟩, rfl, fun c h => by simp [built, State.resetWith] at h,
    fun c h => by simp [built, State.resetWith] at h ⊢; omega⟩

theorem witness_ResetCommandEmptiesTheBuffer :
    (State.resetWith none).configured = false ∧ (built none [0x61]).configured = true := by decide

theorem holds_built (cap : Option Nat) : holds (built cap (counting 9)) (counting 9) := ⟨rfl, by
  show ∀ a, (h : a < (counting 9).length) → (bufOf (counting 9)).read a = some (counting 9)[a]
  decide⟩

theorem witness_FinalizeAnswersTheDigest : (State.resetWith none).configured = false ∧
    (built none (counting 9)).configured = true ∧ holds (built none (counting 9)) (counting 9) ∧
    keyHalves (Vector.replicate 16 0) = ((built none (counting 9)).k0, (built none (counting 9)).k1) ∧
    holds (built none []) [] := ⟨rfl, rfl, holds_built none, by decide, rfl, fun _ h => by simp at h⟩

theorem witness_FinalizeLeavesItsCounters :
    (built none [0x00]).configured = true ∧ goesTo .finalize (built none [0x00]) fun _ => True := ⟨rfl, _, rfl, trivial⟩

theorem witness_DigestBytesAreMostSignificantFirst :
    (built none [0x00]).configured = true ∧ (goesTo .finalize (built none [0x00]) fun _ => True) ∧ 0 < 8 ∧ 7 < 8 :=
  ⟨rfl, ⟨_, rfl, trivial⟩, by decide, by decide⟩

theorem witness_FinalizeEndsWithOkOrStopsOnAnUnheldByte_held : (built none [0x61, 0x62]).configured = true ∧
    ∀ a, a < (built none [0x61, 0x62]).bufLen → ((built none [0x61, 0x62]).buf.read a).isSome = true := ⟨rfl, by decide⟩

theorem witness_FinalizeRepeats :
    (builtSeq [0x00]).configured = true ∧ goesTo .finalize (builtSeq [0x00]) fun _ => True := ⟨rfl, _, rfl, trivial⟩

/-- Two states that differ in staging, engine registers and a byte above `BUFLEN`. -/
theorem witness_DigestDependsOnlyOnKeyRoundsAndBuffer :
    ∃ s s' : State, s ≠ s' ∧ s.configured = true ∧ s'.configured = true ∧ s.k0 = s'.k0 ∧ s.k1 = s'.k1 ∧ s.cr = s'.cr ∧
      s.fr = s'.fr ∧ s.bufLen = s'.bufLen ∧ (∀ a, a < s.bufLen → s.buf.read a = s'.buf.read a) ∧
      goesTo .finalize s fun _ => True :=
  ⟨built none [0x61], { built none [0x61] with
      keyCnt := 3, v := ⟨1, 2, 3, 4⟩, buf := [(0, 0x61), (1, 0x62)], j := 5 },
    by decide, rfl, rfl, rfl, rfl, rfl, rfl, rfl, by decide, _, rfl, trivial⟩

/-- The byte missing in a full block, and the byte missing in the tail. -/
theorem witness_FinalizeEndsWithOkOrStopsOnAnUnheldByte_unheld :
    (∃ s : State, s.configured = true ∧ 7 < s.bufLen ∧ s.buf.read 7 = none) ∧
    ∃ s : State, s.configured = true ∧ 8 < s.bufLen ∧ s.buf.read 8 = none :=
  ⟨⟨{ built none (counting 7) with bufLen := 9 }, rfl, by decide, by decide⟩,
    ⟨{ built none (counting 8) with bufLen := 9 }, rfl, by decide, by decide⟩⟩

theorem witness_AppendStoresOneByte_above :
    ∃ (s : State) (c : Nat), s.configured = true ∧ s.bufCap = some c ∧ c < s.bufLen :=
  ⟨built (some 1) [0x61, 0x62], 1, rfl, rfl, by decide⟩

/-- In each phase of a `FINALIZE`, with a word waiting, a step answers a next state; every byte is held. -/
theorem witness_FinalizeInProgressRunsOnWhileWordsWait :
    (∀ p ∈ [Phase.init, .blocks, .trail, .final], (inPhase p (builtSeq (counting 9))).phase ≠ .idle ∧
      (answer (step (inPhase p (builtSeq (counting 9))))).isSome = true) ∧
    (∀ p rest, (inPhase p (builtSeq (counting 9))).inbox ≠ .hreset :: rest) ∧
    ∀ p a, a < (inPhase p (builtSeq (counting 9))).bufLen →
      ((inPhase p (builtSeq (counting 9))).buf.read a).isSome = true :=
  ⟨by decide, fun p rest => by simp [inPhase, offered], fun _ => by
    show ∀ a, a < 9 → ((bufOf (counting 9)).read a).isSome = true
    decide⟩

theorem witness_SequencerCountsComeToTheFinalizeState : (builtSeq [0x00]).configured = true ∧ (builtSeq [0x00]).cr ≠ 0 ∧
    (builtSeq [0x00]).fr ≠ 0 ∧ (∀ rest, (builtSeq [0x00]).inbox ≠ .hreset :: rest) ∧
    goesTo .finalize (builtSeq [0x00]) fun _ => True :=
  ⟨rfl, by decide, by decide, fun _ => by simp [builtSeq, built, State.resetWith], _, rfl, trivial⟩

/-- A key one byte short, at any round counts. -/
theorem witness_InvalidKeyLengthOnlyFromNew : (staged 15).keyCnt ≠ 16 ∧
    goesTo (.new 0 4) (staged 15) fun t => t.responses = (staged 15).responses ++ [⟨1, 0⟩] :=
  ⟨by decide, _, rfl, rfl⟩

theorem witness_InvalidRoundCountOnlyFromNew : (staged 16).keyCnt = 16 ∧
    (goesTo (.new 0 1) (staged 16) fun t => t.responses = (staged 16).responses ++ [⟨2, 0⟩]) ∧
    goesTo (.new 1 0) (staged 16) fun t => t.responses = (staged 16).responses ++ [⟨2, 0⟩] :=
  ⟨by decide, ⟨_, rfl, rfl⟩, _, rfl, rfl⟩

theorem witness_NotConstructedWithoutAnInstance :
    (goesTo (.append 0) (staged 16) fun t => t.responses = [⟨3, 0⟩]) ∧
    (goesTo .reset (staged 16) fun t => t.responses = [⟨3, 0⟩]) ∧
    (goesTo .finalize (staged 16) fun t => t.responses = [⟨3, 0⟩]) ∧
    (goesTo (.new 1 1) (staged 16) fun t => t.configured = true) ∧
    goesTo (.new 1 1) (staged 15) fun t => t.configured = false :=
  ⟨⟨_, rfl, rfl⟩, ⟨_, rfl, rfl⟩, ⟨_, rfl, rfl⟩, ⟨_, rfl, rfl⟩, ⟨_, rfl, rfl⟩⟩

theorem witness_BufferFullRefusesTheByte : (built (some 1) [0x61]).bufCap = some (built (some 1) [0x61]).bufLen ∧
    goesTo (.append 0) (built (some 1) [0x61]) fun t => t.responses = (built (some 1) [0x61]).responses ++ [⟨4, 0⟩] :=
  ⟨rfl, _, rfl, rfl⟩

theorem witness_IllegalCommandChangesNothing :
    (offered [.command 0x07000000#32] (built none [])).phase = .idle ∧
    (offered [.command 0x07000000#32] (built none [])).inbox = .command 0x07000000#32 :: [] ∧
    decode 0x07000000#32 = .error .unassignedOpcode ∧ decode 0x03010204#32 = .error .reservedFieldSet ∧
    decode 0x06000001#32 = .error .unusedOperandSet ∧ goesTo .keyclr (staged 0) fun _ => True :=
  ⟨rfl, rfl, rfl, rfl, rfl, _, rfl, trivial⟩

theorem witness_FirstFailingCheckIsReported :
    ((offered [.command 0xffffffff#32] (staged 0)).phase = .idle ∧
      (offered [.command 0xffffffff#32] (staged 0)).configured = false ∧
      (offered [.command 0xffffffff#32] (staged 0)).inbox = .command 0xffffffff#32 :: [] ∧
      decode 0xffffffff#32 = .error .reservedFieldSet) ∧
    ((staged 15).keyCnt ≠ 16 ∧ ((0 : Byte) = 0 ∨ (4 : Byte) = 0)) ∧
    (State.resetWith (some 0)).configured = false ∧
    (State.resetWith (some 0)).bufCap = some (State.resetWith (some 0)).bufLen :=
  ⟨⟨rfl, rfl, rfl, rfl⟩, by decide, rfl, rfl⟩

theorem witness_ErrorsChangeOnlyWhatTheyList :
    (goesTo (.new 1 1) (staged 15) fun t => t.responses = (staged 15).responses ++ [⟨1, 0⟩]) ∧
    (goesTo (.new 0 1) (staged 16) fun t => t.responses = (staged 16).responses ++ [⟨2, 0⟩]) ∧
    (goesTo .reset (staged 16) fun t => t.responses = (staged 16).responses ++ [⟨3, 0⟩]) ∧
    ((1 : RspCode) ≠ 0 ∧ (2 : RspCode) ≠ 0 ∧ (3 : RspCode) ≠ 0 ∧ (3 : RspCode) ≠ 1 ∧ (3 : RspCode) ≠ 2) :=
  ⟨⟨_, rfl, rfl⟩, ⟨_, rfl, rfl⟩, ⟨_, rfl, rfl⟩, by decide⟩

theorem witness_EveryCommandAnswersOnce : goesTo .finalize (built none []) fun t =>
    t.responses = (built none []).responses ++ [⟨0, 0x1e924b9d737700d7#64⟩] := ⟨_, rfl, by decide⟩

theorem witness_OnlyNewWritesKeyAndRounds : goesTo (.new 1 3) (staged 16) fun t =>
    t.k0 ≠ (staged 16).k0 ∧ t.k1 ≠ (staged 16).k1 ∧ t.cr ≠ (staged 16).cr ∧ t.fr ≠ (staged 16).fr :=
  ⟨_, rfl, by decide⟩

theorem witness_OnlyFinalizeWritesEngineRegisters : goesTo (.append 0x61) (built none []) fun _ => Instr.append 0x61 ≠ .finalize :=
  ⟨_, rfl, by decide⟩

theorem witness_OnlyKeyCommandsTouchTheStaging :
    (goesTo .reset (staged 3) fun _ => True) ∧
    goesTo (.keypush 0xff) (staged 15) fun t => t.ks[15] ≠ (staged 15).ks[15] := ⟨⟨_, rfl, trivial⟩, _, rfl, by decide⟩

theorem witness_BufferIsAppendOnly : goesTo (.append 0x63) (built none [0x61, 0x62]) fun t =>
    t.buf.read (built none [0x61, 0x62]).bufLen ≠ (built none [0x61, 0x62]).buf.read (built none [0x61, 0x62]).bufLen ∧
    (1 : Nat) ≠ (built none [0x61, 0x62]).bufLen := ⟨_, rfl, by decide⟩

/-- The bit set by a `NEW`, and cleared by a hardware reset and by a failed `NEW`. -/
theorem witness_ConfiguredChangesOnlyByNewOrReset :
    (∃ t, step (offered [.command 0x03000204#32] (staged 16)) = .next t ∧ t.configured ≠ (staged 16).configured) ∧
    (∃ t, step (offered [.hreset] (built none [])) = .next t ∧ t.configured ≠ (built none []).configured) ∧
    ∃ t, step (offered [.command 0x03000204#32] (built none [])) = .next t ∧ t.configured ≠ (built none []).configured :=
  ⟨⟨_, rfl, by decide⟩, ⟨_, rfl, by decide⟩, ⟨_, rfl, by decide⟩⟩

/-- In the middle of a `FINALIZE`; and nothing presented. -/
theorem witness_HardwareResetFromAnyState :
    (∃ (s : State) (rest : List PortEvent), s.phase = .blocks ∧ s.inbox = .hreset :: rest) ∧
    (built none []).phase = .idle ∧ (built none []).inbox = [] :=
  ⟨⟨{ offered [.hreset] (built none [0x61]) with phase := .blocks }, [], rfl, rfl⟩, rfl, rfl⟩

theorem witness_StepRunsTheDecodedCommand : (offered [.command 0x04000061#32] (built none [])).phase = .idle ∧
    (offered [.command 0x04000061#32] (built none [])).inbox = .command 0x04000061#32 :: [] ∧
    decode 0x04000061#32 = .ok (.append 0x61) := ⟨rfl, rfl, rfl⟩

theorem witness_PresentedWordRunsNext : decodeTableWord 32 0x03000204 = some (.new 2 4) := by decide

/-- The invariant holds with an instance, three bytes of message and a capacity just reached. -/
theorem inv_built : Inv (offered [.command 0x04000061#32] (built (some 3) [0x61, 0x62, 0x63])) where
  bufCanonical := by decide
  bufHeld := by decide
  bufPresent := fun cell hc c h => by
    obtain rfl : 3 = c := Option.some.inj h
    have : ∀ cell ∈ (bufOf [0x61, 0x62, 0x63] : Memory), cell.1 < 3 := by decide
    exact this cell hc
  lenInCap := fun c h => by
    obtain rfl : 3 = c := Option.some.inj h
    decide
  keyCntBound := by decide
  tBound := by decide
  idle := rfl
  roundsLegal := by decide
  responsesLegal := fun r hr => by simp [offered, built, State.resetWith] at hr

theorem witness_StepKeepsTheInvariant :
    ∃ s t : State, Inv s ∧ s.configured = true ∧ step s = .next t := ⟨_, _, inv_built, rfl, rfl⟩

theorem witness_InvariantStatesAlwaysStep : ∃ s : State, Inv s ∧ s.configured = true ∧ s.bufCap = some s.bufLen :=
  ⟨_, inv_built, rfl, rfl⟩

theorem witness_StagingCountsAndKeepsTheFirstSixteen :
    (staged 0).keyCnt = 0 ∧ 15 < 16 ∧ 15 < (counting 16).length ∧ 15 < (counting 17).length := by decide

theorem witness_BufferHoldsTheAppendedBytes : (built (some 2) []).configured = true ∧ (built (some 2) []).bufLen = 0 ∧
    roomFor (built (some 2) []) [0x61, 0x62].length :=
  ⟨rfl, rfl, fun c h => by obtain rfl : 2 = c := Option.some.inj h; decide⟩

theorem witness_ChunkBoundariesAreInvisible : (built (some 3) []).configured = true ∧ (built (some 3) []).bufLen = 0 ∧
    roomFor (built (some 3) []) ([0x61, 0x62].length + [0x63].length) :=
  ⟨rfl, rfl, fun c h => by obtain rfl : 3 = c := Option.some.inj h; decide⟩

/-- A used instance and the `NEW` of a fresh one with the same key and rounds. -/
theorem witness_ResetMakesTheInstanceReusable :
    (builtSeq [0x61, 0x62]).configured = true ∧ roomFor (builtSeq [0x61, 0x62]) 9 ∧
    goesTo (.new 2 4) (staged 16) fun u => u.configured = true ∧ u.bufCap = (builtSeq [0x61, 0x62]).bufCap ∧
      u.k0 = (builtSeq [0x61, 0x62]).k0 ∧ u.k1 = (builtSeq [0x61, 0x62]).k1 ∧ u.cr = (builtSeq [0x61, 0x62]).cr ∧
      u.fr = (builtSeq [0x61, 0x62]).fr :=
  ⟨rfl, fun c h => by simp [builtSeq, built, State.resetWith] at h, _, rfl, by decide⟩

theorem witness_AppendAfterFinalizeExtendsTheMessage : (built (some 11) (counting 9)).configured = true ∧
    holds (built (some 11) (counting 9)) (counting 9) ∧
    roomFor (built (some 11) (counting 9)) ((counting 9).length + [0x61, 0x62].length) ∧
    keyHalves (Vector.replicate 16 0) = ((built (some 11) (counting 9)).k0, (built (some 11) (counting 9)).k1) :=
  ⟨rfl, holds_built _, fun c h => by obtain rfl : 11 = c := Option.some.inj h; decide, by decide⟩

/-- Straight after hardware reset, the message filling the buffer. -/
theorem witness_KeyedMessageThroughThePortIsHashed :
    ∃ s : State, s.phase = .idle ∧ s.keyCnt = 0 ∧ (1 : Byte) ≠ 0 ∧ (3 : Byte) ≠ 0 ∧ roomFor s [0x61].length ∧
      s.inbox = (pushes (Vector.replicate 16 (0 : Byte)).toList ++ Instr.new 1 3 :: appends [0x61] ++
        [Instr.finalize]).map (fun i => PortEvent.command (encode i)) ++ [.hreset] :=
  ⟨offered _ (State.resetWith (some 1)), rfl, rfl, by decide, by decide,
    fun c h => by obtain rfl : 1 = c := Option.some.inj h; decide, rfl⟩

theorem witness_OneResponsePerCommandWord : ∃ s : State, Inv s ∧ s.configured = true ∧
    s.inbox = [0x04000061#32].map PortEvent.command ++ [] := ⟨_, inv_built, rfl, rfl⟩

/-- A state with stale bytes, staging and engine registers is the same to the host as one without, and both step. -/
theorem witness_UnspecifiedValuesAreNeverObserved : ∃ s s' t : State, s ≠ s' ∧ SameToHost s s' ∧ step s = .next t :=
  ⟨offered [.command 0x06000000#32] { built none [0x61] with buf := [(0, 0x61), (1, 0x62)], v := ⟨1, 2, 3, 4⟩, j := 9 },
    offered [.command 0x06000000#32] (built none [0x61]), _, by decide,
    { configured := rfl, keyCnt := rfl, bufLen := rfl, phase := rfl, bufCap := rfl, inbox := rfl, responses := rfl,
      staged := by decide, key0 := fun _ => rfl, key1 := fun _ => rfl, rounds0 := fun _ => rfl, rounds1 := fun _ => rfl,
      engine := fun h => absurd rfl h, bytes := by decide }, rfl⟩

/-- The same in the middle of a `FINALIZE`, before its `Init`: `V`, `J` and `T` may differ. -/
theorem witness_UnspecifiedValuesAreNeverObserved_inProgress :
    ∃ s s' t : State, s ≠ s' ∧ s.phase ≠ .idle ∧ SameToHost s s' ∧ step s = .next t :=
  ⟨{ inPhase .init (built none [0x61]) with v := ⟨1, 2, 3, 4⟩, j := 9, t := 7 }, inPhase .init (built none [0x61]), _,
    by decide, by decide,
    { configured := rfl, keyCnt := rfl, bufLen := rfl, phase := rfl, bufCap := rfl, inbox := rfl, responses := rfl,
      staged := by decide, key0 := fun _ => rfl, key1 := fun _ => rfl, rounds0 := fun _ => rfl, rounds1 := fun _ => rfl,
      engine := fun _ h => absurd rfl h, bytes := by decide }, rfl⟩

end Sys2Proof.Tests
end

section
/-! PROOFS. The statements about words and bytes (00_scope R7 to R9), and the lane each byte takes in `le64` and `be64`. -/

namespace Sys2Proof.Machine

/-! ## Arithmetic on words (R7, R8) -/

theorem toNat_add64 (a b : Word) : (add64 a b).toNat = (a.toNat + b.toNat) % 2 ^ 64 := BitVec.toNat_add a b

/-- The formula needs no bound on the amount: the right shift of a word is below `2^64` whatever it is. -/
theorem toNat_rotl64 (n : Word) (k : Nat) :
    (rotl64 n k).toNat = ((n.toNat <<< k) ||| (n.toNat >>> (64 - k))) % 2 ^ 64 := by
  have hright : n.toNat >>> (64 - k) % 2 ^ 64 = n.toNat >>> (64 - k) :=
    Nat.mod_eq_of_lt (Nat.lt_of_le_of_lt (Nat.shiftRight_le _ _) n.isLt)
  rw [rotl64, BitVec.toNat_or, BitVec.toNat_shiftLeft, BitVec.toNat_ushiftRight, Nat.or_mod_two_pow, hright]

/-! ## Byte lanes (R9) -/

/-- `lane_shift` for a byte of a list. -/
theorem lane_byteAt_shift (b : List Byte) (k : Nat) {i j : Nat} (hi : i < 8) :
    (byteAt b k <<< (8 * j)).extractLsb' (8 * i) 8 = if i = j then b.getD k 0 else 0 :=
  lane_shift _ hi

/-- Byte `i` of the list is lane `i` of `le64`. -/
theorem le64_lane (b : List Byte) {i : Nat} (hi : i < 8) : (le64 b).extractLsb' (8 * i) 8 = b.getD i 0 := by
  have hle : le64 b = byteAt b 0 <<< (8 * 0) ||| byteAt b 1 <<< (8 * 1) ||| byteAt b 2 <<< (8 * 2) |||
      byteAt b 3 <<< (8 * 3) ||| byteAt b 4 <<< (8 * 4) ||| byteAt b 5 <<< (8 * 5) ||| byteAt b 6 <<< (8 * 6) |||
      byteAt b 7 <<< (8 * 7) := by simp [le64]
  rw [hle]
  simp only [lane_or, lane_byteAt_shift _ _ hi]
  interval_cases i <;> simp

theorem or_reverse_eight (a b c d e f g h : Word) :
    a ||| b ||| c ||| d ||| e ||| f ||| g ||| h = h ||| g ||| f ||| e ||| d ||| c ||| b ||| a := by
  ac_rfl

/-- `be64` is `le64` of the same eight bytes the other way round. -/
theorem be64_eq_le64 (b : List Byte) :
    be64 b = le64 [b.getD 7 0, b.getD 6 0, b.getD 5 0, b.getD 4 0, b.getD 3 0, b.getD 2 0, b.getD 1 0, b.getD 0 0] :=
  or_reverse_eight ..

/-- Byte `i` of the list is lane `7 - i` of `be64`. -/
theorem be64_lane (b : List Byte) {i : Nat} (hi : i < 8) : (be64 b).extractLsb' (8 * (7 - i)) 8 = b.getD i 0 := by
  rw [be64_eq_le64, le64_lane _ (by omega)]
  interval_cases i <;> rfl

theorem length_bytesBe (w : Word) : (bytesBe w).length = 8 := rfl

/-- Byte `i` of `bytes_be` is lane `7 - i` of the word. -/
theorem bytesBe_getElem? (w : Word) {i : Nat} (hi : i < 8) :
    (bytesBe w)[i]? = some (w.extractLsb' (8 * (7 - i)) 8) := by
  interval_cases i <;> rfl

theorem be64_bytesBe (w : Word) : be64 (bytesBe w) = w := by
  apply word_ext_lanes
  intro i hi
  have hlane := be64_lane (bytesBe w) (i := 7 - i) (by omega)
  rwa [List.getD_eq_getElem?_getD, bytesBe_getElem? w (by omega), show 7 - (7 - i) = i by omega] at hlane

/-! ## The statements -/

/-- Settles O7: `add64` is the sum of the two bit vectors. -/
theorem additionWrapsModulo2To64 : Obligations.AdditionWrapsModulo2To64 := toNat_add64

/-- Settles O8: the left shift wraps at 64 bits, and the right shift loses nothing to the modulus. -/
theorem rotationFollowsItsFormula : Obligations.RotationFollowsItsFormula := fun n k _ _ => toNat_rotl64 n k

/-- Settles O9, lane by lane. -/
theorem byteOrderPrimitivesPlaceEachByte : Obligations.ByteOrderPrimitivesPlaceEachByte := by
  have hdown (i : Nat) : 56 - 8 * i = 8 * (7 - i) := by omega
  refine ⟨fun b hlen i h => ?_, fun w => ⟨length_bytesBe w, fun i hi => ?_⟩, be64_bytesBe⟩
  · have hi : i < 8 := hlen ▸ h
    rw [hdown, le64_lane b hi, be64_lane b hi, List.getD_eq_getElem b 0 h]
    exact ⟨rfl, rfl⟩
  · rw [hdown, bytesBe_getElem? w hi]

end Sys2Proof.Machine
end

section
/-! PROOFS. What a step does for each thing it finds at the port, and what only one command changes (10_state R11, R12,
R15, R16, R19). -/

namespace Sys2Proof.Machine

/-! ## One equation per arrival at the port (30_encoding R51; 70_reset R150) -/

theorem step_nothing {s : State} (hq : s.inbox = []) (hp : s.phase = .idle) : step s = .next s := by
  simp [step, takeEvent, hq, cmdReady, hp]

theorem step_hreset {s : State} {rest : List PortEvent} (hq : s.inbox = .hreset :: rest) :
    step s = .next (hardwareReset (s.setInbox rest)) := by
  simp [step, takeEvent, hq]

theorem step_illegal {s : State} {w : CmdWord} {rest : List PortEvent} {e : DecodeError}
    (hq : s.inbox = .command w :: rest) (hp : s.phase = .idle) (hd : decode w = .error e) :
    step s = .next (takeException .illegalCommand (s.setInbox rest)) := by
  simp [step, takeEvent, hq, cmdReady, hp, hd]

theorem step_accepted {s : State} {w : CmdWord} {rest : List PortEvent} {i : Instr}
    (hq : s.inbox = .command w :: rest) (hp : s.phase = .idle) (hd : decode w = .ok i) :
    step s = exec i (s.setInbox rest) := by
  simp [step, takeEvent, hq, cmdReady, hp, hd]

/-! ## What only one command changes -/

/-- A command keeps the key halves and the round counts, or it is a `NEW` that installs its own (R12, R16, R75). -/
theorem exec_key_rounds {i : Instr} {s t : State} (h : exec i s = .next t) :
    (t.k0 = s.k0 ∧ t.k1 = s.k1 ∧ t.cr = s.cr ∧ t.fr = s.fr) ∨
      ∃ c d, i = .new c d ∧ t.cr = c ∧ t.fr = d ∧ (t.k0, t.k1) = keyHalves s.ks ∧ t.bufLen = 0 := by
  rcases exec_cases h with ⟨-, rfl⟩ | ⟨b, hk, -, rfl⟩ | ⟨b, -, -, rfl⟩ | ⟨c, d, -, -, rfl⟩ | ⟨c, d, -, -, -, rfl⟩ |
    ⟨c, d, -, -, -, hi, rfl⟩ | ⟨-, -, rfl⟩ | ⟨b, -, -, -, rfl⟩ | ⟨b, -, -, -, rfl⟩ | ⟨-, -, rfl⟩ | ⟨-, -, v, -, rfl⟩
  pick_goal 6
  · exact .inr ⟨c, d, hi, rfl, rfl, rfl, rfl⟩
  all_goals exact .inl ⟨rfl, rfl, rfl, rfl⟩

/-- A command keeps `V` and the sequencer, or it is a `FINALIZE` (R11, R19); every command keeps the capacity (R23). -/
theorem exec_engine {i : Instr} {s t : State} (h : exec i s = .next t) :
    (i = .finalize ∨ t.v = s.v ∧ t.phase = s.phase ∧ t.j = s.j ∧ t.t = s.t) ∧ t.bufCap = s.bufCap := by
  rcases exec_cases h with ⟨-, rfl⟩ | ⟨b, hk, -, rfl⟩ | ⟨b, -, -, rfl⟩ | ⟨c, d, -, -, rfl⟩ | ⟨c, d, -, -, -, rfl⟩ |
    ⟨c, d, -, -, -, -, rfl⟩ | ⟨-, -, rfl⟩ | ⟨b, -, -, -, rfl⟩ | ⟨b, -, -, -, rfl⟩ | ⟨-, -, rfl⟩ | ⟨hi, -, v, -, rfl⟩
  pick_goal 11
  · exact ⟨.inl hi, rfl⟩
  all_goals exact ⟨.inr ⟨rfl, rfl, rfl, rfl⟩, rfl⟩

/-- A command keeps `CONFIGURED`, or it is a `NEW` that sets it exactly if it answers OK (R15, R133). -/
theorem exec_configured {i : Instr} {s t : State} (h : exec i s = .next t) :
    t.configured = s.configured ∨
      ∃ c d r, i = .new c d ∧ t.responses = s.responses ++ [r] ∧ (t.configured = true ↔ r.code = 0) := by
  rcases exec_cases h with ⟨-, rfl⟩ | ⟨b, hk, -, rfl⟩ | ⟨b, -, -, rfl⟩ | ⟨c, d, -, hi, rfl⟩ | ⟨c, d, -, -, hi, rfl⟩ |
    ⟨c, d, -, -, -, hi, rfl⟩ | ⟨-, -, rfl⟩ | ⟨b, -, -, -, rfl⟩ | ⟨b, -, -, -, rfl⟩ | ⟨-, -, rfl⟩ | ⟨-, -, v, -, rfl⟩
  iterate 3 exact .inl rfl
  iterate 3 exact .inr ⟨c, d, _, hi, rfl, by simp⟩
  all_goals exact .inl rfl

/-- A count of the sequencer writes nothing but the engine's registers and the responses. -/
theorem sequencerStep_frame {s t : State} (hp : s.phase ≠ .idle) (h : sequencerStep s = .ok t) :
    t = { s with v := t.v, phase := t.phase, j := t.j, t := t.t, responses := t.responses } := by
  rcases sequencerStep_cases hp with ⟨v, p, j, n, -, -, e⟩ | ⟨-, e⟩ | e
  · cases e.symm.trans h; rfl
  · cases e.symm.trans h; rfl
  · cases e.symm.trans h

/-! ## The statements -/

/-- Settles O26: the whole next state of a constructed machine's `FINALIZE` is known, counters included. -/
theorem finalizeLeavesItsCounters : Obligations.FinalizeLeavesItsCounters := by
  intro s t hc h
  obtain ⟨v, -, rfl⟩ := exec_finalize_constructed hc h
  exact ⟨rfl, rfl, rfl⟩

/-- Settles O41: a command that is not an accepted `NEW` keeps all four registers. -/
theorem onlyNewWritesKeyAndRounds : Obligations.OnlyNewWritesKeyAndRounds := by
  intro i s t h hne
  rcases exec_key_rounds h with ⟨hk0, hk1, hcr, hfr⟩ | hnew
  · simp [hk0, hk1, hcr, hfr] at hne
  · exact hnew

/-- Settles O42: the engine's registers from the case analysis of the commands, the inbox from `exec_port`. -/
theorem onlyFinalizeWritesEngineRegisters : Obligations.OnlyFinalizeWritesEngineRegisters := by
  intro i s t h
  obtain ⟨hengine, hcap⟩ := exec_engine h
  obtain ⟨hinbox, -, -⟩ := Safety.exec_port h
  exact ⟨hengine.resolve_left, hcap, hinbox⟩

/-- Settles O45: of the five things a step can do, only a hardware reset and an accepted `NEW` write `CONFIGURED`. -/
theorem configuredChangesOnlyByNewOrReset : Obligations.ConfiguredChangesOnlyByNewOrReset := by
  intro s t h hne
  rcases step_cases h with ⟨-, -, rfl⟩ | ⟨rest, hq, rfl⟩ | ⟨w, rest, e, -, -, -, rfl⟩ | ⟨w, rest, i, hq, -, hd, he⟩ |
    ⟨hp, -, he⟩
  · exact absurd rfl hne
  · exact .inl ⟨rest, hq, rfl⟩
  · exact absurd rfl hne
  · rcases exec_configured he with hkept | ⟨c, d, r, rfl, hr, hiff⟩
    · exact absurd hkept hne
    · exact .inr ⟨w, rest, c, d, r, hq, hd, hr, hiff⟩
  · exact absurd (congrArg State.configured (sequencerStep_frame hp he)) hne

end Sys2Proof.Machine
end

section
/-! PROOFS. The invariant: one rule per operation on the state, then the commands and the step (10_state R10, R13, R16,
R19, R26). -/

namespace Sys2Proof.Safety

open Sys2Proof.Machine

/-! ## One rule per operation -/

/-- A response the hardware may give: a code up to 5, and no data on an error (30_encoding R56). -/
def legalResponse (r : Response) : Prop := r.code.toNat ≤ 5 ∧ (r.code ≠ 0 → r.data = 0)

/-- A response with code 0 may carry a digest. -/
theorem legalResponse_ok (d : Word) : legalResponse ⟨0, d⟩ := ⟨Nat.zero_le 5, fun h => absurd rfl h⟩

theorem legalResponse_error (e : ErrorCode) : legalResponse ⟨e.code, 0⟩ := ⟨by cases e <;> decide, fun _ => rfl⟩

theorem Inv.setInbox {s : State} (h : Inv s) (q : List PortEvent) : Inv (s.setInbox q) := { h with }

theorem Inv.respond {s : State} (h : Inv s) {c : RspCode} {d : Word} (hr : legalResponse ⟨c, d⟩) :
    Inv (s.respond c d) :=
  { h with
    responsesLegal := fun r hmem => by
      rcases List.mem_append.1 hmem with hold | hnew
      · exact h.responsesLegal r hold
      · exact List.mem_singleton.1 hnew ▸ hr }

theorem Inv.respondOk {s : State} (h : Inv s) : Inv s.respondOk := h.respond (legalResponse_ok 0)

theorem Inv.setKeyCnt {s : State} (h : Inv s) {n : Nat} (hn : n ≤ 17) : Inv (s.setKeyCnt n) :=
  { h with keyCntBound := hn }

theorem Inv.stageByte {s : State} (h : Inv s) (i : Nat) (hi : i < 16) (b : Byte) : Inv (s.stageByte i hi b) :=
  { h with }

theorem Inv.clearBuf {s : State} (h : Inv s) : Inv s.clearBuf :=
  { h with
    bufHeld := fun a ha => absurd ha (Nat.not_lt_zero a)
    lenInCap := fun c _ => Nat.zero_le c }

theorem Inv.dropInstance {s : State} (h : Inv s) : Inv s.dropInstance :=
  { h.clearBuf with roundsLegal := fun hc => absurd hc (by simp) }

theorem Inv.install {s : State} (h : Inv s) (k : Word × Word) {c d : Byte} (hc : c ≠ 0) (hd : d ≠ 0) :
    Inv (s.install k c d) :=
  { h.clearBuf with roundsLegal := fun _ => ⟨hc, hd⟩ }

/-- The byte at `BUFLEN` becomes held, and its address exists because there was room. -/
theorem Inv.storeByte {s : State} (h : Inv s) (b : Byte) (hroom : ∀ c, s.bufCap = some c → s.bufLen < c) :
    Inv (s.storeByte b) :=
  { h with
    bufCanonical := Memory.write_wf s.bufLen b h.bufCanonical
    bufHeld := fun a ha => by
      have ha : a < s.bufLen + 1 := ha
      rcases Nat.lt_succ_iff_lt_or_eq.1 ha with hlt | rfl
      · rw [State.storeByte_buf, Memory.read_write_ne _ _ (Nat.ne_of_lt hlt)]
        exact h.bufHeld a hlt
      · rw [State.storeByte_buf, Memory.read_write_self]
        rfl
    bufPresent := fun cell hcell c hc => by
      rcases Memory.mem_write hcell with rfl | hold
      · exact hroom c hc
      · exact h.bufPresent cell hold c hc
    lenInCap := hroom }

/-- A `FINALIZE` leaves the round count of one byte in `T` and the sequencer idle. -/
theorem Inv.finalized {s : State} (h : Inv s) (v : VRegs) (j : Nat) :
    Inv { s with v := v, phase := .idle, j := j, t := s.fr.toNat } :=
  { h with
    tBound := Nat.le_of_lt_succ s.fr.isLt
    idle := rfl }

theorem Inv.takeException {s : State} (h : Inv s) (e : ErrorCode) : Inv (takeException e s) := by
  have heffect : Inv (e.effect s) := by
    cases e with
    | invalidKeyLength | invalidRoundCount => exact (h.setKeyCnt (Nat.zero_le 17)).dropInstance
    | notConstructed | bufferFull | illegalCommand => exact h
  exact heffect.respond (legalResponse_error e)

/-- The reset state holds no byte and is not constructed, so nothing is asked of its capacity or its round counts. -/
theorem inv_resetWith (cap : Option Nat) : Inv (State.resetWith cap) where
  bufCanonical := rfl
  bufHeld := fun a ha => absurd ha (Nat.not_lt_zero a)
  bufPresent := fun _ hcell => absurd hcell List.not_mem_nil
  lenInCap := fun c _ => Nat.zero_le c
  keyCntBound := Nat.zero_le 17
  tBound := Nat.zero_le 255
  idle := rfl
  roundsLegal := fun hc => absurd hc Bool.false_ne_true
  responsesLegal := fun _ hr => absurd hr List.not_mem_nil

theorem Inv.hardwareReset {s : State} (h : Inv s) : Inv (hardwareReset s) :=
  { inv_resetWith s.bufCap with responsesLegal := h.responsesLegal }

/-! ## The commands and the step -/

theorem exec_keeps_inv {i : Instr} {s t : State} (hI : Inv s) (h : exec i s = .next t) : Inv t := by
  have hempty : Inv (s.setKeyCnt 0) := hI.setKeyCnt (Nat.zero_le 17)
  rcases exec_cases h with ⟨-, rfl⟩ | ⟨b, hk, -, rfl⟩ | ⟨b, -, -, rfl⟩ | ⟨c, d, -, -, rfl⟩ | ⟨c, d, -, -, -, rfl⟩ |
    ⟨c, d, -, hc, hd, -, rfl⟩ | ⟨-, -, rfl⟩ | ⟨b, -, -, -, rfl⟩ | ⟨b, -, -, hroom, rfl⟩ | ⟨-, -, rfl⟩ |
    ⟨-, -, v, -, rfl⟩
  · exact hempty.respondOk
  · exact ((hI.stageByte s.keyCnt hk b).setKeyCnt (by omega)).respondOk
  · exact (hI.setKeyCnt (Nat.le_refl 17)).respondOk
  · exact hempty.takeException .invalidKeyLength
  · exact hempty.takeException .invalidRoundCount
  · exact (hempty.install (keyHalves s.ks) hc hd).respondOk
  · exact hI.takeException .notConstructed
  · exact hI.takeException .bufferFull
  · exact (hI.storeByte b hroom).respondOk
  · exact hI.clearBuf.respondOk
  · exact (hI.finalized v (s.bufLen / 8)).respond (legalResponse_ok _)

/-! ## The statements -/

/-- Settles O51: each arrival at an idle port keeps the invariant, and with the sequencer idle no `FINALIZE` is in
progress. -/
theorem stepKeepsTheInvariant : Obligations.StepKeepsTheInvariant := by
  intro s t hI h
  rcases step_cases h with ⟨-, -, rfl⟩ | ⟨rest, -, rfl⟩ | ⟨w, rest, e, -, -, -, rfl⟩ | ⟨w, rest, i, -, -, -, he⟩ |
    ⟨hp, -, -⟩
  · exact hI
  · exact (hI.setInbox rest).hardwareReset
  · exact (hI.setInbox rest).takeException .illegalCommand
  · exact exec_keeps_inv (hI.setInbox rest) he
  · exact absurd hI.idle hp

/-- Settles O46: the fields of the reset state as they are written, and a buffer that lists nothing. -/
theorem resetLeavesTheSpecifiedValues : Obligations.ResetLeavesTheSpecifiedValues :=
  ⟨⟨Config.defaultBufCap, rfl⟩, fun _ => ⟨rfl, rfl, rfl, rfl, rfl, Memory.read_nil⟩⟩

/-- Settles O50. -/
theorem resetMeetsTheInvariant : Obligations.ResetMeetsTheInvariant := inv_resetWith

end Sys2Proof.Safety
end

section
/-! PROOFS. Bytes pushed and appended one after another (10_state R13, R20; 40_key R71; 41_buffer R80). -/

namespace Sys2Proof.Safety

open Sys2Proof.Machine

/-- One command in front of a list that runs from its next state. -/
theorem execAll_cons {i : Instr} {is : List Instr} {s t : State} (h : exec i s = .next t) :
    execAll (i :: is) s = execAll is t := by
  simp only [execAll, h]

/-! ## The key staging -/

/-- The staging after the bytes of `L` were pushed onto it empty: `KEYCNT` saturates at 17 and the first 16 bytes are
kept in push order (R13). -/
def stagingHolds (L : List Byte) (s : State) : Prop :=
  s.keyCnt = min L.length 17 ∧ ∀ i, (h : i < 16) → (hL : i < L.length) → s.ks[i] = L[i]

theorem stagingHolds_nil {s : State} (h : s.keyCnt = 0) : stagingHolds [] s :=
  ⟨h, fun i _ hi => absurd hi (Nat.not_lt_zero i)⟩

/-- A `KEYPUSH` adds its byte to the list staged, whether or not there is room for it. -/
theorem exec_keypush_stagingHolds {L : List Byte} {s : State} (b : Byte) (hs : stagingHolds L s) :
    ∃ t, exec (.keypush b) s = .next t ∧ stagingHolds (L ++ [b]) t := by
  obtain ⟨hcnt, hks⟩ := hs
  rcases Nat.lt_or_ge s.keyCnt 16 with hk | hk
  · have hlen : s.keyCnt = L.length := by omega
    refine ⟨_, exec_keypush_stored b hk, by simp; omega, fun i hi hL => ?_⟩
    simp only [List.length_append, List.length_singleton] at hL
    rcases Nat.lt_succ_iff_lt_or_eq.1 hL with hlt | rfl
    · simp [Vector.getElem_set_ne, hlen, Nat.ne_of_gt hlt, List.getElem_append_left hlt, hks i hi hlt]
    · simp [hlen]
  · refine ⟨_, exec_keypush_dropped b hk, by simp; omega, fun i hi hL => ?_⟩
    have hlt : i < L.length := by omega
    simpa [List.getElem_append_left hlt] using hks i hi hlt

theorem execAll_pushes_stagingHolds {K : List Byte} {s : State} (L : List Byte) (hs : stagingHolds K s) :
    ∃ t, execAll (pushes L) s = .next t ∧ stagingHolds (K ++ L) t := by
  induction L generalizing K s with
  | nil => exact ⟨s, rfl, by simpa using hs⟩
  | cons b L ih =>
    obtain ⟨u, hu, hsu⟩ := exec_keypush_stagingHolds b hs
    obtain ⟨t, ht, hst⟩ := ih hsu
    exact ⟨t, (execAll_cons hu).trans ht, by simpa using hst⟩

/-! ## The buffer -/

/-- A byte written at `BUFLEN` extends the message held. -/
theorem holds_storeByte {s : State} {M : List Byte} (b : Byte) (h : holds s M) : holds (s.storeByte b) (M ++ [b]) := by
  obtain ⟨hlen, hread⟩ := h
  refine ⟨by simp [hlen], fun a ha => ?_⟩
  simp only [List.length_append, List.length_singleton] at ha
  rw [State.storeByte_buf, hlen]
  rcases Nat.lt_succ_iff_lt_or_eq.1 ha with hlt | rfl
  · rw [Memory.read_write_ne _ _ (Nat.ne_of_lt hlt), hread a hlt, List.getElem_append_left hlt]
  · rw [Memory.read_write_self, List.getElem_concat_length rfl]

/-- Appending `N` to a message held, with room for both, changes nothing but the buffer and the responses (R80). -/
theorem execAll_appends {s : State} {M : List Byte} (N : List Byte) (hc : s.configured = true) (hM : holds s M)
    (hroom : roomFor s (M.length + N.length)) :
    ∃ m : Memory, execAll (appends N) s = .next { s with
        buf := m, bufLen := M.length + N.length,
        responses := s.responses ++ List.replicate N.length ⟨0, 0⟩ } ∧
      ∀ a, (h : a < (M ++ N).length) → m.read a = some (M ++ N)[a] := by
  induction N generalizing s M with
  | nil =>
    obtain ⟨hlen, hread⟩ := hM
    exact ⟨s.buf, by simp [appends, execAll, ← hlen], by simpa using hread⟩
  | cons b N ih =>
    have hlen : (M ++ [b]).length + N.length = M.length + (N.length + 1) := by simp; omega
    have hfree : ∀ c, s.bufCap = some c → s.bufLen < c := fun c e => by
      have hle : M.length + (N.length + 1) ≤ c := hroom c e
      have hfull : s.bufLen = M.length := hM.1
      omega
    obtain ⟨m, hrun, hm⟩ := ih (s := (s.storeByte b).respondOk) hc (holds_storeByte b hM)
      (fun c e => hlen ▸ hroom c e)
    refine ⟨m, (execAll_cons (exec_append_stored b hc hfree)).trans (hrun.trans ?_), by simpa using hm⟩
    simp only [hlen, State.respondOk_responses, State.storeByte_responses, List.append_assoc, List.length_cons,
      List.replicate_succ, List.singleton_append]
    rfl

/-! ## The statements -/

/-- Settles O53, from the bytes staged: the count saturates at 17. -/
theorem stagingCountsAndKeepsTheFirstSixteen : Obligations.StagingCountsAndKeepsTheFirstSixteen := by
  intro s L h0
  obtain ⟨t, hrun, hcnt, hks⟩ := execAll_pushes_stagingHolds L (stagingHolds_nil h0)
  rw [List.nil_append] at hcnt
  refine ⟨t, hrun, ?_, hks⟩
  split <;> omega

/-- Settles O54: an empty buffer holds the empty message. -/
theorem bufferHoldsTheAppendedBytes : Obligations.BufferHoldsTheAppendedBytes := by
  intro s M hc h0 hroom
  have hnil : holds s [] := ⟨h0, fun a ha => absurd ha (Nat.not_lt_zero a)⟩
  obtain ⟨m, hrun, hm⟩ := execAll_appends M hc hnil (by simpa using hroom)
  exact ⟨m, by simpa using hrun, hm⟩

end Sys2Proof.Safety
end

section
/-! PROOFS. A `FINALIZE` that answers has read every byte below `BUFLEN`, and each was held (10_state R26). -/

namespace Sys2Proof.Machine

open Sys2Proof.Safety

theorem isSome_of_memRead {s : State} {a n x : Nat} {bs : List Byte} (h : memRead s a n = .ok bs)
    (hin : a + n ≤ s.bufLen) (hlo : a ≤ x) (hhi : x < a + n) : (s.buf.read x).isSome = true := by
  rw [memRead_inside hin] at h
  rcases readBytes_cases s.buf a n with ⟨bs', -, hlen, hread⟩ | ⟨e, -⟩
  · have := hread (x - a) (by omega)
    rw [show a + (x - a) = x by omega] at this
    rw [this]
    rfl
  · cases e.symm.trans h

theorem isSome_of_blockWord {s : State} {j x : Nat} {w : Word} (h : blockWord s j = .ok w) (hj : j < s.bufLen / 8)
    (hlo : 8 * j ≤ x) (hhi : x < 8 * (j + 1)) : (s.buf.read x).isSome = true := by
  unfold blockWord at h
  split at h
  · cases h
  · rename_i bs hbs
    exact isSome_of_memRead hbs (by omega) hlo (by omega)

theorem isSome_of_trailWord {s : State} {x : Nat} {w : Word} (h : trailWord s = .ok w) (hlo : 8 * (s.bufLen / 8) ≤ x)
    (hhi : x < s.bufLen) : (s.buf.read x).isSome = true := by
  unfold trailWord at h
  split at h
  · cases h
  · rename_i bs hbs
    exact isSome_of_memRead hbs (by omega) (by omega) (by omega)

theorem isSome_of_runBlocks {s u : State} {k x : Nat} (h : runBlocks k s = .ok u) (hk : s.j + k ≤ s.bufLen / 8)
    (hlo : 8 * s.j ≤ x) (hhi : x < 8 * (s.j + k)) : (s.buf.read x).isSome = true := by
  induction k generalizing s with
  | zero => omega
  | succ k ih =>
    rw [runBlocks] at h
    split at h
    · cases h
    · rename_i m hm
      rw [seqCompress_eq] at h
      rcases Nat.lt_or_ge x (8 * (s.j + 1)) with hfirst | hlater
      · exact isSome_of_blockWord hm (by omega) hlo hfirst
      · exact ih (s := State.setJ (s.j + 1) { s with v := compressWord s.cr.toNat m s.v, t := s.cr.toNat }) h
          (by simp only [State.setJ_j, State.setJ_bufLen]; omega) hlater (by simp only [State.setJ_j]; omega)

theorem isSome_of_blocksPhase {s u : State} {x : Nat} (h : blocksPhase s = .ok u) (hhi : x < 8 * (s.bufLen / 8)) :
    (s.buf.read x).isSome = true := by
  refine isSome_of_runBlocks (s := (s.setPhase .blocks).setJ 0) h ?_ (Nat.zero_le x) ?_ <;> simp [hhi]

theorem isSome_of_trailPhase {s u : State} {x : Nat} (h : trailPhase s = .ok u) (hlo : 8 * (s.bufLen / 8) ≤ x)
    (hhi : x < s.bufLen) : (s.buf.read x).isSome = true := by
  unfold trailPhase at h
  split at h
  · cases h
  · rename_i w hw
    exact isSome_of_trailWord hw hlo hhi

theorem isSome_of_runPhases {s u : State} {x : Nat} (h : runPhases s = .ok u) (hx : x < s.bufLen) :
    (s.buf.read x).isSome = true := by
  rcases blocksPhase_cases (initPhase s) with ⟨v, t, hblocks⟩ | hblocks
  · rcases Nat.lt_or_ge x (8 * (s.bufLen / 8)) with hblock | htail
    · exact isSome_of_blocksPhase (s := initPhase s) hblocks hblock
    · simp only [runPhases, hblocks] at h
      split at h
      · cases h
      · rename_i w hw
        have hread := isSome_of_trailPhase hw (x := x) htail hx
        exact hread
  · simp [runPhases, hblocks] at h

/-- The phases of a `FINALIZE` come to an end only over a message held. -/
theorem holds_of_runPhases {s u : State} (h : runPhases s = .ok u) : ∃ M, holds s M :=
  holds_of_isSome fun _ ha => isSome_of_runPhases h ha

end Sys2Proof.Machine
end

section
/-! PROOFS. What the spec gives no value is never observed (10_state R26): two states that are the same to the host go
on the same. One rule per operation, then the commands, the sequencer and the step. -/

namespace Sys2Proof.Safety

open Sys2Proof.Machine

/-! ## One rule per operation -/

theorem SameToHost.refl (s : State) : SameToHost s s :=
  ⟨rfl, rfl, rfl, rfl, rfl, rfl, rfl, fun _ _ _ => rfl, fun _ => rfl, fun _ => rfl, fun _ => rfl, fun _ => rfl,
    fun _ _ => ⟨rfl, rfl, rfl⟩, fun _ _ => rfl⟩

theorem SameToHost.setInbox {s s' : State} (h : SameToHost s s') (q : List PortEvent) :
    SameToHost (s.setInbox q) (s'.setInbox q) :=
  { h with inbox := rfl }

theorem SameToHost.respond {s s' : State} (h : SameToHost s s') (c : RspCode) (d : Word) :
    SameToHost (s.respond c d) (s'.respond c d) :=
  { h with responses := by simp [h.responses] }

/-- An empty staging hides every staged byte. -/
theorem SameToHost.emptyStaging {s s' : State} (h : SameToHost s s') :
    SameToHost (s.setKeyCnt 0) (s'.setKeyCnt 0) :=
  { h with
    keyCnt := rfl
    staged := fun i _ hi => absurd hi (Nat.not_lt_zero i) }

theorem SameToHost.pushKeyByte {s s' : State} (h : SameToHost s s') (b : Byte) :
    SameToHost (pushKeyByte b s) (pushKeyByte b s') := by
  rcases Nat.lt_or_ge s.keyCnt 16 with hk | hk
  · have hk' : s'.keyCnt < 16 := h.keyCnt ▸ hk
    rw [Machine.pushKeyByte, Machine.pushKeyByte, dif_pos hk, dif_pos hk']
    refine { h with keyCnt := congrArg (· + 1) h.keyCnt, staged := fun i hi hlt => ?_ }
    rcases Nat.lt_succ_iff_lt_or_eq.1 hlt with hold | rfl
    · have hne' : s'.keyCnt ≠ i := h.keyCnt ▸ Nat.ne_of_gt hold
      simpa [Vector.getElem_set_ne, Nat.ne_of_gt hold, hne'] using h.staged i hi hold
    · simp [h.keyCnt]
  · have hk' : 16 ≤ s'.keyCnt := h.keyCnt ▸ hk
    rw [Machine.pushKeyByte, Machine.pushKeyByte, dif_neg (Nat.not_lt.2 hk), dif_neg (Nat.not_lt.2 hk')]
    exact { h with keyCnt := rfl, staged := fun i hi _ => h.staged i hi (Nat.lt_of_lt_of_le hi hk) }

theorem SameToHost.clearBuf {s s' : State} (h : SameToHost s s') : SameToHost s.clearBuf s'.clearBuf :=
  { h with
    bufLen := rfl
    bytes := fun a ha => absurd ha (Nat.not_lt_zero a) }

theorem instanceInUse_of_dropInstance {s : State} (h : instanceInUse s.dropInstance) : instanceInUse s :=
  .inr (h.resolve_left Bool.false_ne_true)

theorem SameToHost.dropInstance {s s' : State} (h : SameToHost s s') : SameToHost s.dropInstance s'.dropInstance :=
  { h.clearBuf with
    configured := rfl
    key0 := fun hu => h.key0 (instanceInUse_of_dropInstance hu)
    key1 := fun hu => h.key1 (instanceInUse_of_dropInstance hu)
    rounds0 := fun hu => h.rounds0 (instanceInUse_of_dropInstance hu)
    rounds1 := fun hu => h.rounds1 (instanceInUse_of_dropInstance hu) }

theorem SameToHost.install {s s' : State} (h : SameToHost s s') (k : Word × Word) (c d : Byte) :
    SameToHost (s.install k c d) (s'.install k c d) :=
  { h.clearBuf with
    configured := rfl
    key0 := fun _ => rfl
    key1 := fun _ => rfl
    rounds0 := fun _ => rfl
    rounds1 := fun _ => rfl }

theorem SameToHost.storeByte {s s' : State} (h : SameToHost s s') (b : Byte) :
    SameToHost (s.storeByte b) (s'.storeByte b) :=
  { h with
    bufLen := congrArg (· + 1) h.bufLen
    bytes := fun a ha => by
      rw [State.storeByte_buf, State.storeByte_buf, ← h.bufLen]
      rcases Nat.lt_succ_iff_lt_or_eq.1 ha with hold | rfl
      · rw [Memory.read_write_ne _ _ (Nat.ne_of_lt hold), Memory.read_write_ne _ _ (Nat.ne_of_lt hold)]
        exact h.bytes a hold
      · rw [Memory.read_write_self, Memory.read_write_self] }

/-- Writing the same values to the engine's registers, when the key and the rounds are in use already. -/
theorem SameToHost.setEngine {s s' : State} (h : SameToHost s s') (hu : instanceInUse s) (v : VRegs) (p : Phase)
    (j t : Nat) :
    SameToHost { s with v := v, phase := p, j := j, t := t } { s' with v := v, phase := p, j := j, t := t } :=
  { h with
    phase := rfl
    key0 := fun _ => h.key0 hu
    key1 := fun _ => h.key1 hu
    rounds0 := fun _ => h.rounds0 hu
    rounds1 := fun _ => h.rounds1 hu
    engine := fun _ _ => ⟨rfl, rfl, rfl⟩ }

theorem SameToHost.takeException {s s' : State} (h : SameToHost s s') (e : ErrorCode) :
    SameToHost (takeException e s) (takeException e s') := by
  have heffect : SameToHost (e.effect s) (e.effect s') := by
    cases e with
    | invalidKeyLength | invalidRoundCount => exact h.emptyStaging.dropInstance
    | notConstructed | bufferFull | illegalCommand => exact h
  exact heffect.respond e.code 0

/-- After hardware reset only what R24 gives a value, and the capacity and the port's two ends, can be told apart. -/
theorem SameToHost.hardwareReset {s s' : State} (h : SameToHost s s') :
    SameToHost (hardwareReset s) (hardwareReset s') := by
  rw [Machine.hardwareReset, Machine.hardwareReset, h.bufCap, h.inbox, h.responses]
  exact .refl _

/-! ## The commands -/

/-- A whole key staged is the same key. -/
theorem SameToHost.ks_eq {s s' : State} (h : SameToHost s s') (hk : s.keyCnt = 16) : s.ks = s'.ks :=
  Vector.ext fun i hi => h.staged i hi (hk ▸ hi)

theorem SameToHost.holds {s s' : State} {M : List Byte} (h : SameToHost s s') (hM : holds s M) : holds s' M := by
  obtain ⟨hlen, hread⟩ := hM
  exact ⟨h.bufLen ▸ hlen, fun a ha => h.bytes a (hlen ▸ ha) ▸ hread a ha⟩

/-- The phases read only the message held, the key and the rounds. -/
theorem SameToHost.runPhases {s s' : State} {v : VRegs} (h : SameToHost s s') (hc : s.configured = true)
    (e : runPhases s = .ok { s with v := v, phase := .idle, j := s.bufLen / 8, t := s.fr.toNat }) :
    runPhases s' = .ok { s' with v := v, phase := .idle, j := s.bufLen / 8, t := s.fr.toNat } := by
  obtain ⟨M, hM⟩ := holds_of_runPhases e
  have hv : v = sipFinal s.cr.toNat s.fr.toNat s.k0 s.k1 M :=
    congrArg State.v (Except.ok.inj (e.symm.trans (runPhases_holds hM)))
  have hu : instanceInUse s := .inl hc
  rw [runPhases_holds (h.holds hM), hv, h.bufLen, h.key0 hu, h.key1 hu, h.rounds0 hu, h.rounds1 hu]

theorem exec_sameToHost {i : Instr} {s s' t : State} (h : SameToHost s s') (he : exec i s = .next t) :
    ∃ t', exec i s' = .next t' ∧ SameToHost t t' := by
  rcases exec_cases he with ⟨rfl, rfl⟩ | ⟨b, hk, rfl, -⟩ | ⟨b, hk, rfl, -⟩ | ⟨c, d, hk, rfl, rfl⟩ |
    ⟨c, d, hk, hz, rfl, rfl⟩ | ⟨c, d, hk, hc, hd, rfl, rfl⟩ | ⟨hi, hc, rfl⟩ | ⟨b, rfl, hc, hf, rfl⟩ |
    ⟨b, rfl, hc, hr, rfl⟩ | ⟨rfl, hc, rfl⟩ | ⟨rfl, hc, v, e, rfl⟩
  · exact ⟨_, rfl, h.emptyStaging.respond 0 0⟩
  · exact ⟨_, rfl, Host.Outcome.next.inj he ▸ (h.pushKeyByte b).respond 0 0⟩
  · exact ⟨_, rfl, Host.Outcome.next.inj he ▸ (h.pushKeyByte b).respond 0 0⟩
  · exact ⟨_, exec_new_badLength c d (h.keyCnt ▸ hk), h.emptyStaging.takeException .invalidKeyLength⟩
  · exact ⟨_, exec_new_badRounds (h.keyCnt ▸ hk) hz, h.emptyStaging.takeException .invalidRoundCount⟩
  · refine ⟨_, ?_, (h.emptyStaging.install (keyHalves s.ks) c d).respond 0 0⟩
    rw [h.ks_eq hk]
    exact exec_new_valid (h.keyCnt ▸ hk) hc hd
  · have hc' : s'.configured = false := h.configured ▸ hc
    rcases hi with ⟨b, rfl⟩ | rfl | rfl
    · exact ⟨_, exec_append_notConstructed b hc', h.takeException .notConstructed⟩
    · exact ⟨_, exec_reset_notConstructed hc', h.takeException .notConstructed⟩
    · exact ⟨_, exec_finalize_notConstructed hc', h.takeException .notConstructed⟩
  · exact ⟨_, exec_append_full b (h.configured ▸ hc) (by rw [← h.bufCap, ← h.bufLen, hf]), h.takeException .bufferFull⟩
  · exact ⟨_, exec_append_stored b (h.configured ▸ hc) (h.bufCap ▸ h.bufLen ▸ hr), (h.storeByte b).respond 0 0⟩
  · exact ⟨_, exec_reset_constructed (h.configured ▸ hc), h.clearBuf.respond 0 0⟩
  · exact ⟨_, exec_finalize_of_phases (h.configured ▸ hc) (h.runPhases hc e),
      (h.setEngine (.inl hc) v .idle _ _).respond 0 _⟩

/-! ## A `FINALIZE` in progress -/

/-- Another staging and another buffer in the same machine. -/
def withBytes (ks : Vector Byte 16) (m : Memory) (s : State) : State := { s with ks := ks, buf := m }

section
variable {s : State} {ks : Vector Byte 16} {m : Memory}

theorem memRead_withBytes (h : ∀ a, a < s.bufLen → m.read a = s.buf.read a) (a n : Nat) :
    memRead (withBytes ks m s) a n = memRead s a n := by
  by_cases hin : a + n ≤ s.bufLen
  · rw [memRead_inside hin, memRead_inside (by exact hin)]
    exact readBytes_congr fun i hi => h (a + i) (by omega)
  · rw [memRead, memRead, if_neg hin, if_neg (by exact hin)]

theorem blockWord_withBytes (h : ∀ a, a < s.bufLen → m.read a = s.buf.read a) (j : Nat) :
    blockWord (withBytes ks m s) j = blockWord s j := by
  rw [blockWord, blockWord, memRead_withBytes h]

theorem trailWord_withBytes (h : ∀ a, a < s.bufLen → m.read a = s.buf.read a) :
    trailWord (withBytes ks m s) = trailWord s := by
  rw [trailWord, trailWord, memRead_withBytes h]
  rfl

/-- Each count writes the engine's registers alone, from the engine's registers and `CR` alone. -/
theorem wordStep_withBytes (w : Word) {after : State → State}
    (hafter : ∀ u, after (withBytes ks m u) = withBytes ks m (after u)) :
    wordStep w after (withBytes ks m s) = withBytes ks m (wordStep w after s) := by
  rcases Nat.lt_or_ge s.t s.cr.toNat with ht | ht
  · rw [wordStep_round ht, wordStep_round (by exact ht)]
    rfl
  · rw [wordStep_done ht, wordStep_done (by exact ht), ← hafter]
    rfl

theorem finalStep_withBytes : finalStep (withBytes ks m s) = withBytes ks m (finalStep s) := by
  rcases Nat.lt_or_ge s.t s.fr.toNat with ht | ht
  · rw [finalStep_round ht, finalStep_round (by exact ht)]
    rfl
  · rw [finalStep_done ht, finalStep_done (by exact ht)]
    rfl

theorem blocksStep_withBytes (h : ∀ a, a < s.bufLen → m.read a = s.buf.read a) :
    blocksStep (withBytes ks m s) = (blocksStep s).map (withBytes ks m) := by
  by_cases hj : s.j < s.bufLen / 8
  · have hblock : blockWord (withBytes ks m s) (withBytes ks m s).j = blockWord s s.j := blockWord_withBytes h s.j
    rw [blocksStep, blocksStep, if_pos hj, if_pos (by exact hj), hblock]
    cases blockWord s s.j with
    | error f => rfl
    | ok w => exact congrArg Except.ok (wordStep_withBytes w fun _ => rfl)
  · rw [blocksStep, blocksStep, if_neg hj, if_neg (by exact hj)]
    rfl

theorem trailStep_withBytes (h : ∀ a, a < s.bufLen → m.read a = s.buf.read a) :
    trailStep (withBytes ks m s) = (trailStep s).map (withBytes ks m) := by
  rw [trailStep, trailStep, trailWord_withBytes h]
  cases trailWord s with
  | error f => rfl
  | ok w => exact congrArg Except.ok (wordStep_withBytes w fun _ => rfl)

/-- A count of the sequencer reads no staged byte and only valid buffer bytes, and writes neither. -/
theorem sequencerStep_withBytes (h : ∀ a, a < s.bufLen → m.read a = s.buf.read a) :
    sequencerStep (withBytes ks m s) = (sequencerStep s).map (withBytes ks m) := by
  have hphase : (withBytes ks m s).phase = s.phase := rfl
  rw [sequencerStep, sequencerStep, hphase]
  cases s.phase with
  | idle | init => rfl
  | blocks => exact blocksStep_withBytes h
  | trail => exact trailStep_withBytes h
  | final => exact congrArg Except.ok finalStep_withBytes

/-- Bytes not staged and bytes not valid are not seen. -/
theorem sameToHost_withBytes (hks : ∀ i, (h : i < 16) → i < s.keyCnt → s.ks[i] = ks[i])
    (hm : ∀ a, a < s.bufLen → s.buf.read a = m.read a) : SameToHost s (withBytes ks m s) :=
  { SameToHost.refl s with
    staged := hks
    bytes := hm }

end

/-- Once a `FINALIZE` has initialised the engine, only the staging and the buffer may differ. -/
theorem SameToHost.eq_withBytes {s s' : State} (h : SameToHost s s') (hp : s.phase ≠ .idle) (hi : s.phase ≠ .init) :
    s' = withBytes s'.ks s'.buf s := by
  obtain ⟨hv, hj, ht⟩ := h.engine hp hi
  have hu : instanceInUse s := .inr hp
  rw [withBytes, h.configured, h.keyCnt, h.bufLen, h.phase, h.bufCap, h.inbox, h.responses, h.key0 hu, h.key1 hu,
    h.rounds0 hu, h.rounds1 hu, hv, hj, ht]

theorem sequencerStep_init {s : State} (hi : s.phase = .init) :
    sequencerStep s = .ok { s with v := initV s.k0 s.k1, phase := .blocks, j := 0, t := 0 } := by
  rw [sequencerStep, hi]
  rfl

theorem sequencerStep_sameToHost {s s' u : State} (h : SameToHost s s') (hp : s.phase ≠ .idle)
    (e : sequencerStep s = .ok u) : ∃ u', sequencerStep s' = .ok u' ∧ SameToHost u u' := by
  by_cases hi : s.phase = .init
  · have hu : instanceInUse s := .inr hp
    have hv : initV s.k0 s.k1 = initV s'.k0 s'.k1 := congrArg₂ initV (h.key0 hu) (h.key1 hu)
    cases (sequencerStep_init hi).symm.trans e
    refine ⟨_, sequencerStep_init (h.phase ▸ hi), ?_⟩
    rw [← hv]
    exact h.setEngine hu _ _ _ _
  · have hframe := sequencerStep_frame hp e
    have hks : u.ks = s.ks := by rw [hframe]
    have hcnt : u.keyCnt = s.keyCnt := by rw [hframe]
    have hbuf : u.buf = s.buf := by rw [hframe]
    have hlen : u.bufLen = s.bufLen := by rw [hframe]
    refine ⟨withBytes s'.ks s'.buf u, ?_, sameToHost_withBytes (fun i h16 hlt => ?_) fun a ha => ?_⟩
    · rw [h.eq_withBytes hp hi, sequencerStep_withBytes fun a ha => (h.bytes a ha).symm, e]
      rfl
    · simpa only [hks] using h.staged i h16 (hcnt ▸ hlt)
    · rw [hbuf]
      exact h.bytes a (hlen ▸ ha)

/-! ## The step and the statement -/

theorem continueFinalize_of_sequencerStep {s t : State} (h : sequencerStep s = .ok t) :
    continueFinalize s = .next t := by
  rw [continueFinalize, h]

theorem step_sameToHost {s s' t : State} (h : SameToHost s s') (hs : step s = .next t) :
    ∃ t', step s' = .next t' ∧ SameToHost t t' := by
  rcases step_cases hs with ⟨hq, hp, rfl⟩ | ⟨rest, hq, rfl⟩ | ⟨w, rest, e, hq, hp, hd, rfl⟩ |
    ⟨w, rest, i, hq, hp, hd, he⟩ | ⟨hp, hq, he⟩
  · exact ⟨s', step_nothing (h.inbox ▸ hq) (h.phase ▸ hp), h⟩
  · exact ⟨_, step_hreset (h.inbox ▸ hq), (h.setInbox rest).hardwareReset⟩
  · exact ⟨_, step_illegal (h.inbox ▸ hq) (h.phase ▸ hp) hd, (h.setInbox rest).takeException .illegalCommand⟩
  · obtain ⟨t', ht', hsame⟩ := exec_sameToHost (h.setInbox rest) he
    exact ⟨t', (step_accepted (h.inbox ▸ hq) (h.phase ▸ hp) hd).trans ht', hsame⟩
  · obtain ⟨t', ht', hsame⟩ := sequencerStep_sameToHost h hp he
    exact ⟨t', (step_inProgress (h.phase ▸ hp) (h.inbox ▸ hq)).trans (continueFinalize_of_sequencerStep ht'), hsame⟩

/-- Settles O60: after reset nothing is staged, no key is in use, no byte is valid and the sequencer is idle; and a step
keeps what the host can tell apart. -/
theorem unspecifiedValuesAreNeverObserved : Obligations.UnspecifiedValuesAreNeverObserved := by
  refine ⟨fun cap ks k0 k1 cr fr buf v j t inbox => ?_, fun s s' t => step_sameToHost⟩
  have hunused : ¬ instanceInUse { State.resetWith cap with
      ks := ks, k0 := k0, k1 := k1, cr := cr, fr := fr, buf := buf, v := v, j := j, t := t, inbox := inbox } := by
    simp [instanceInUse, State.resetWith]
  exact
    { SameToHost.refl { State.resetWith cap with inbox := inbox } with
      staged := fun i _ hi => absurd hi (Nat.not_lt_zero i)
      key0 := fun hu => absurd hu hunused
      key1 := fun hu => absurd hu hunused
      rounds0 := fun hu => absurd hu hunused
      rounds1 := fun hu => absurd hu hunused
      engine := fun hp => absurd rfl hp
      bytes := fun a ha => absurd ha (Nat.not_lt_zero a) }

end Sys2Proof.Safety
end

section
/-! PROOFS. The buffer as a memory (20_memory R32, R45; 10_state R20): what a command does to it, and that a digest
reads nothing else but the key and the rounds. -/

namespace Sys2Proof.Machine

open Sys2Proof.Safety

/-! ## What a command does to the buffer -/

/-- A command keeps every byte and either keeps `BUFLEN` or empties the buffer as a `RESET` or a `NEW`; or it is an
`APPEND` that stores its byte at `BUFLEN` and counts it. -/
theorem exec_buffer {i : Instr} {s t : State} (h : exec i s = .next t) :
    (t.buf = s.buf ∧ (t.bufLen = s.bufLen ∨ t.bufLen = 0 ∧ (i = .reset ∨ ∃ c d, i = .new c d))) ∨
      ∃ b, i = .append b ∧ t.buf = s.buf.write s.bufLen b ∧ t.bufLen = s.bufLen + 1 := by
  rcases exec_cases h with ⟨-, rfl⟩ | ⟨b, hk, -, rfl⟩ | ⟨b, -, -, rfl⟩ | ⟨c, d, -, hi, rfl⟩ | ⟨c, d, -, -, hi, rfl⟩ |
    ⟨c, d, -, -, -, hi, rfl⟩ | ⟨-, -, rfl⟩ | ⟨b, -, -, -, rfl⟩ | ⟨b, hi, -, -, rfl⟩ | ⟨hi, -, rfl⟩ | ⟨-, -, v, -, rfl⟩
  iterate 3 exact .inl ⟨rfl, .inl rfl⟩
  iterate 3 exact .inl ⟨rfl, .inr ⟨rfl, .inr ⟨c, d, hi⟩⟩⟩
  iterate 2 exact .inl ⟨rfl, .inl rfl⟩
  · exact .inr ⟨b, hi, rfl, rfl⟩
  · exact .inl ⟨rfl, .inr ⟨rfl, .inl hi⟩⟩
  · exact .inl ⟨rfl, .inl rfl⟩

/-! ## What a digest depends on -/

theorem holds_congr {s s' : State} {M : List Byte} (hlen : s.bufLen = s'.bufLen)
    (hread : ∀ a, a < s.bufLen → s.buf.read a = s'.buf.read a) (hM : holds s M) : holds s' M := by
  obtain ⟨hl, hbytes⟩ := hM
  exact ⟨hlen ▸ hl, fun a ha => hread a (hl ▸ ha) ▸ hbytes a ha⟩

/-- A constructed machine that holds a message answers that message's digest under its key halves and rounds. -/
theorem lastResponse_finalize_holds {s : State} {M : List Byte} (hc : s.configured = true) (hM : holds s M) :
    ∃ t, exec .finalize s = .next t ∧
      lastResponse t = some ⟨0, digestWord (sipFinal s.cr.toNat s.fr.toNat s.k0 s.k1 M)⟩ :=
  ⟨_, exec_finalize_of_phases hc (runPhases_holds hM), by simp [lastResponse]⟩

/-! ## The statements -/

/-- Settles O30: a `FINALIZE` that answers has read a whole message, the other state holds the same one, and both answer
the digest of the message under the key and the rounds they share. -/
theorem digestDependsOnlyOnKeyRoundsAndBuffer : Obligations.DigestDependsOnlyOnKeyRoundsAndBuffer := by
  intro s s' t hc hc' hk0 hk1 hcr hfr hlen hread h
  obtain ⟨v, hphases, -⟩ := exec_finalize_constructed hc h
  obtain ⟨M, hM⟩ := holds_of_runPhases hphases
  obtain ⟨u, hu, hresp⟩ := lastResponse_finalize_holds hc hM
  obtain ⟨t', ht', hresp'⟩ := lastResponse_finalize_holds hc' (holds_congr hlen hread hM)
  obtain rfl : t = u := Host.Outcome.next.inj (h.symm.trans hu)
  exact ⟨t', ht', by rw [hresp, hresp', hk0, hk1, hcr, hfr]⟩

/-- Settles O44: a command leaves the bytes alone, or it is the `APPEND` that writes at `BUFLEN`. -/
theorem bufferIsAppendOnly : Obligations.BufferIsAppendOnly := by
  intro i s t h
  rcases exec_buffer h with ⟨hbuf, hlen⟩ | ⟨b, hi, hbuf, hlen⟩
  · rw [hbuf]
    exact ⟨fun _ _ => rfl, fun hne => absurd rfl hne, hlen.imp_right .inr⟩
  · have hstored : t.buf.read s.bufLen = some b := hbuf ▸ Memory.read_write_self s.buf s.bufLen b
    exact ⟨fun a ha => hbuf ▸ Memory.read_write_ne s.buf b ha, fun _ => ⟨b, hi, hstored, hlen⟩,
      .inr (.inl ⟨hlen, b, hi, hstored⟩)⟩

end Sys2Proof.Machine
end

section
/-! PROOFS. The encoding (30_encoding R52 to R63): the word of a command and the command of a word, the legal words, and
the words the pseudo-instructions expand to. -/

namespace Sys2Proof

/-! ## The fields of a word as numbers (R52) -/

theorem toNat_opcOf (w : CmdWord) : (opcOf w).toNat = w.toNat / 2 ^ 24 := by
  have hw := w.isLt
  simp only [opcOf, BitVec.extractLsb'_toNat, Nat.shiftRight_eq_div_pow]
  omega

theorem toNat_rsvOf (w : CmdWord) : (rsvOf w).toNat = w.toNat / 2 ^ 16 % 256 := by
  simp [rsvOf, Nat.shiftRight_eq_div_pow]

theorem toNat_imm1Of (w : CmdWord) : (imm1Of w).toNat = w.toNat / 2 ^ 8 % 256 := by
  simp [imm1Of, Nat.shiftRight_eq_div_pow]

theorem toNat_imm0Of (w : CmdWord) : (imm0Of w).toNat = w.toNat % 256 := by
  simp [imm0Of]

theorem packWord_eq_iff {o c d : Byte} {w : CmdWord} :
    packWord o c d = w ↔ rsvOf w = 0 ∧ opcOf w = o ∧ imm1Of w = c ∧ imm0Of w = d := by
  constructor
  · rintro rfl
    simp
  · rintro ⟨hrsv, rfl, rfl, rfl⟩
    exact packWord_fields hrsv

/-- Two words with the same four fields are the same word. -/
theorem word_ext_fields {w w' : CmdWord} : w = w' ↔
    rsvOf w = rsvOf w' ∧ opcOf w = opcOf w' ∧ imm1Of w = imm1Of w' ∧ imm0Of w = imm0Of w' := by
  refine ⟨by rintro rfl; simp, fun ⟨hrsv, hopc, himm1, himm0⟩ => BitVec.eq_of_toNat_eq ?_⟩
  simp only [BitVec.toNat_eq, toNat_opcOf, toNat_rsvOf, toNat_imm1Of, toNat_imm0Of] at hopc hrsv himm1 himm0
  omega

/-- A packed word as a number. -/
theorem toNat_packWord (o c d : Byte) : (packWord o c d).toNat = 0x1000000 * o.toNat + 0x100 * c.toNat + d.toNat := by
  have hopc := toNat_opcOf (packWord o c d)
  have hrsv := toNat_rsvOf (packWord o c d)
  have himm1 := toNat_imm1Of (packWord o c d)
  have himm0 := toNat_imm0Of (packWord o c d)
  simp only [opcOf_packWord, rsvOf_packWord, imm1Of_packWord, imm0Of_packWord, Nat.reducePow, BitVec.ofNat_eq_ofNat,
    BitVec.toNat_ofNat] at hopc hrsv himm1 himm0
  omega

/-! ## The word of a command and the command of a word (R58) -/

theorem decode_encode (i : Instr) : decode (encode i) = .ok i := by
  cases i <;> simp [encode, decode]

/-- Each test of `decode` that answers a command has fixed every field that the command's word fixes. -/
theorem encode_of_decode {w : CmdWord} {i : Instr} (h : decode w = .ok i) : encode i = w := by
  unfold decode at h
  split_ifs at h with hrsv h1 hz h2 hc h3 h4 hc h5 hz h6 hz
  all_goals cases h
  · exact packWord_eq_iff.2 ⟨not_not.1 hrsv, h1, hz⟩
  · exact packWord_eq_iff.2 ⟨not_not.1 hrsv, h2, hc, rfl⟩
  · exact packWord_eq_iff.2 ⟨not_not.1 hrsv, h3, rfl, rfl⟩
  · exact packWord_eq_iff.2 ⟨not_not.1 hrsv, h4, hc, rfl⟩
  · exact packWord_eq_iff.2 ⟨not_not.1 hrsv, h5, hz⟩
  · exact packWord_eq_iff.2 ⟨not_not.1 hrsv, h6, hz⟩

theorem encode_injective : Function.Injective encode := fun i i' h =>
  Except.ok.inj ((decode_encode i).symm.trans (h ▸ decode_encode i'))

/-- `decode` refuses exactly the words that are no command's word. -/
theorem decode_refuses_iff {w : CmdWord} : (∃ e, decode w = .error e) ↔ ¬ ∃ i, encode i = w := by
  constructor
  · rintro ⟨e, he⟩ ⟨i, rfl⟩
    cases he.symm.trans (decode_encode i)
  · intro hno
    cases hd : decode w with
    | ok i => exact absurd ⟨i, encode_of_decode hd⟩ hno
    | error e => exact ⟨e, rfl⟩

/-! ## The legal words (R54, R55) -/

/-- What the opcode map asks of the fields of a legal word. -/
def legalFields (w : CmdWord) : Prop :=
  rsvOf w = 0#8 ∧
    (opcOf w = 1#8 ∧ imm1Of w = 0#8 ∧ imm0Of w = 0#8 ∨ opcOf w = 2#8 ∧ imm1Of w = 0#8 ∨ opcOf w = 3#8 ∨
      opcOf w = 4#8 ∧ imm1Of w = 0#8 ∨ opcOf w = 5#8 ∧ imm1Of w = 0#8 ∧ imm0Of w = 0#8 ∨
      opcOf w = 6#8 ∧ imm1Of w = 0#8 ∧ imm0Of w = 0#8)

theorem exists_encode_eq_iff {w : CmdWord} : (∃ i, encode i = w) ↔ legalFields w := by
  constructor
  · rintro ⟨i, rfl⟩
    cases i <;> simp [encode, legalFields]
  · rintro ⟨hrsv, ⟨ho, hc, hd⟩ | ⟨ho, hc⟩ | ho | ⟨ho, hc⟩ | ⟨ho, hc, hd⟩ | ⟨ho, hc, hd⟩⟩
    · exact ⟨.keyclr, packWord_eq_iff.2 ⟨hrsv, ho, hc, hd⟩⟩
    · exact ⟨.keypush (imm0Of w), packWord_eq_iff.2 ⟨hrsv, ho, hc, rfl⟩⟩
    · exact ⟨.new (imm1Of w) (imm0Of w), packWord_eq_iff.2 ⟨hrsv, ho, rfl, rfl⟩⟩
    · exact ⟨.append (imm0Of w), packWord_eq_iff.2 ⟨hrsv, ho, hc, rfl⟩⟩
    · exact ⟨.reset, packWord_eq_iff.2 ⟨hrsv, ho, hc, hd⟩⟩
    · exact ⟨.finalize, packWord_eq_iff.2 ⟨hrsv, ho, hc, hd⟩⟩

/-- A row's mask and pattern, field by field. -/
theorem selects_iff_fields {r : CmdRow} {w : CmdWord} : r.selects w = true ↔
    rsvOf w &&& rsvOf r.mask = rsvOf r.pattern ∧ opcOf w &&& opcOf r.mask = opcOf r.pattern ∧
      imm1Of w &&& imm1Of r.mask = imm1Of r.pattern ∧ imm0Of w &&& imm0Of r.mask = imm0Of r.pattern := by
  rw [CmdRow.selects, beq_iff_eq, word_ext_fields]
  simp only [opcOf, rsvOf, imm1Of, imm0Of, BitVec.extractLsb'_and]

theorem legalWord_iff_fields {w : CmdWord} : legalWord w = true ↔ legalFields w := by
  have hones (b : Byte) : b &&& 255#8 = b := BitVec.and_allOnes
  simp only [legalWord, cmdTable, List.any_cons, List.any_nil, Bool.or_eq_true, Bool.or_false, selects_iff_fields]
  simp [opcOf, rsvOf, imm1Of, imm0Of, legalFields, hones, and_or_left]

theorem legalWord_iff {w : CmdWord} : legalWord w = true ↔ ∃ i, encode i = w :=
  legalWord_iff_fields.trans exists_encode_eq_iff.symm

/-- Rows with one opcode are one row. -/
theorem cmdRow_eq_of_opcOf_pattern {r r' : CmdRow} (hr : r ∈ cmdTable) (hr' : r' ∈ cmdTable)
    (h : opcOf r.pattern = opcOf r'.pattern) : r = r' := by
  have hdiffer : (cmdTable.map fun r => opcOf r.pattern).Nodup := by decide
  exact List.inj_on_of_nodup_map hdiffer hr hr' h

theorem opcOf_mask_of_mem : ∀ r ∈ cmdTable, opcOf r.mask = BitVec.allOnes 8 := by
  decide

/-! ## Every command, listed -/

def allBytes : List Byte := (List.finRange 256).map BitVec.ofFin

theorem mem_allBytes (b : Byte) : b ∈ allBytes := List.mem_map.2 ⟨b.toFin, List.mem_finRange _, rfl⟩

theorem length_allBytes : allBytes.length = 256 := by simp [allBytes]

theorem nodup_allBytes : allBytes.Nodup :=
  (List.nodup_finRange 256).map fun _ _ h => congrArg BitVec.toFin h

/-- Every command with every operand at every value. -/
def allCommands : List Instr :=
  [.keyclr, .reset, .finalize] ++ allBytes.map .keypush ++ allBytes.map .append ++
    (allBytes ×ˢ allBytes).map fun p => .new p.1 p.2

theorem mem_allCommands (i : Instr) : i ∈ allCommands := by
  cases i <;> simp [allCommands, mem_allBytes]

theorem length_allCommands : allCommands.length = 66051 := by
  simp only [allCommands, List.length_append, List.length_map, List.length_product, length_allBytes,
    List.length_cons, List.length_nil]

theorem nodup_allCommands : allCommands.Nodup := by
  have hpush : (allBytes.map Instr.keypush).Nodup := nodup_allBytes.map fun _ _ h => Instr.keypush.inj h
  have happend : (allBytes.map Instr.append).Nodup := nodup_allBytes.map fun _ _ h => Instr.append.inj h
  have hnew : ((allBytes ×ˢ allBytes).map fun p => Instr.new p.1 p.2).Nodup :=
    (nodup_allBytes.product nodup_allBytes).map fun _ _ h => Prod.ext_iff.2 (Instr.new.inj h)
  simp [allCommands, List.nodup_append', List.disjoint_left, hpush, happend, hnew]

/-! ## The pseudo-instructions (R61 to R63) -/

/-- The word of a command with one operand byte is `base`, its opcode on top, with the byte added. -/
theorem packWord_operandByte {o : Byte} {n base : Nat} (hn : isByte n = true) (hbase : base = 0x1000000 * o.toNat) :
    packWord o 0 (Machine.operandByte n) = BitVec.ofNat 32 (base + n) := by
  have ho := o.isLt
  have hn : n < 256 := of_decide_eq_true hn
  apply BitVec.eq_of_toNat_eq
  rw [toNat_packWord, Machine.operandByte, BitVec.toNat_ofNat, BitVec.toNat_ofNat, hbase, BitVec.ofNat_eq_ofNat,
    BitVec.toNat_zero]
  omega

/-! ## The statements -/

/-- Settles O1. -/
theorem listedWordsDecodeAsListed : Obligations.ListedWordsDecodeAsListed :=
  ⟨rfl, rfl, rfl, rfl, rfl, rfl, rfl, rfl, rfl, rfl, rfl, rfl, rfl⟩

/-- Settles O2: a word that decodes is its command's word, on whose fields the rule's tests are known; and each command
the rule's tests answer has fields that a refused word has not. -/
theorem decodeReadsTheFields : Obligations.DecodeReadsTheFields := by
  intro w
  simp only [← toNat_opcOf, ← toNat_rsvOf, ← toNat_imm1Of, ← toNat_imm0Of, BitVec.ofNat_toNat, BitVec.setWidth_eq]
  cases hd : decode w with
  | ok i =>
    obtain rfl := encode_of_decode hd
    cases i <;> simp [encode]
  | error e =>
    have hno : ¬ legalFields w := fun h => decode_refuses_iff.1 ⟨e, hd⟩ (exists_encode_eq_iff.2 h)
    simp only [legalFields, BitVec.toNat_eq, BitVec.toNat_ofNat, Nat.reducePow, Nat.reduceMod] at hno
    by_cases hrsv : (rsvOf w).toNat = 0
    · have hnone := not_and.1 hno hrsv
      simp only [not_or] at hnone
      obtain ⟨h1, h2, h3, h4, h5, h6⟩ := hnone
      rw [if_neg (not_not.2 hrsv), if_neg h1, if_neg h2, if_neg h3, if_neg h4, if_neg h5, if_neg h6]
    · rw [if_pos hrsv]

/-- Settles O3. -/
theorem decodeAndEncodeAgree : Obligations.DecodeAndEncodeAgree :=
  ⟨decode_encode, fun _ _ => encode_of_decode⟩

/-- Settles O4: a word has one opcode, so one row; and the legal words are the words of the listed commands, no two of
which share a word. -/
theorem opcodeMapIsDisjointWith66051Words : Obligations.OpcodeMapIsDisjointWith66051Words := by
  refine ⟨fun w r r' hr hr' h h' => cmdRow_eq_of_opcOf_pattern hr hr' ?_,
    allCommands.map encode, nodup_allCommands.map encode_injective, ?_, fun w => ?_⟩
  · rw [← opcOf_of_selects (opcOf_mask_of_mem r hr) h, opcOf_of_selects (opcOf_mask_of_mem r' hr') h']
  · rw [List.length_map, length_allCommands]
  · simp only [legalWord_iff, List.mem_map, mem_allCommands, true_and]

/-- Settles O5: both the refused words and those no row selects are the words of no command, and the fields left over
from those of a command's word are the rule's list. -/
theorem illegalWordsAreThoseNoRowSelects : Obligations.IllegalWordsAreThoseNoRowSelects := by
  intro w
  rw [← Bool.not_eq_true, decode_refuses_iff, legalWord_iff]
  refine ⟨Iff.rfl, ?_⟩
  rw [exists_encode_eq_iff]
  simp only [legalFields, BitVec.toNat_eq, toNat_opcOf, toNat_rsvOf, toNat_imm1Of, toNat_imm0Of, List.mem_cons,
    List.not_mem_nil, or_false, BitVec.toNat_ofNat, Nat.reducePow]
  omega

/-- Settles O6: each byte of a line gives the word of its one-operand command. -/
theorem pseudoInstructionsExpandToTheirWords : Obligations.PseudoInstructionsExpandToTheirWords := by
  refine ⟨rfl, rfl, fun bs hbs => ?_, rfl, fun bs hbs => ?_⟩
  · simp only [Machine.expandLine, List.map_cons, List.map_map]
    refine congrArg₂ List.cons rfl (List.map_congr_left fun b hb => ?_)
    exact packWord_operandByte (List.all_eq_true.1 hbs b hb) rfl
  · simp only [Machine.expandLine, List.map_map]
    exact List.map_congr_left fun b hb => packWord_operandByte (List.all_eq_true.1 hbs b hb) rfl

end Sys2Proof
end

section
/-! PROOFS. The port and the step (30_encoding R51, R56): every command word is taken and answered once, and a `FINALIZE`
in progress comes to its end. -/

namespace Sys2Proof.Machine

open Sys2Proof.Safety

/-! ## A run, one step at a time -/

theorem run_of_step {s t : State} (h : step s = .next t) (n : Nat) : core.run (n + 1) s = core.run n t := by
  have hs : core.step s = .next t := h
  simp only [Host.Core.run, hs]

/-! ## The answer of a command (R56) -/

/-- The response a command adds: its code is at most 5, and only the digest of a `FINALIZE` carries data. -/
theorem exec_response {i : Instr} {s t : State} (h : exec i s = .next t) :
    ∃ r : Response, t.responses = s.responses ++ [r] ∧ r.code.toNat ≤ 5 ∧ (r.data ≠ 0 → i = .finalize ∧ r.code = 0) := by
  rcases exec_cases h with ⟨-, rfl⟩ | ⟨b, hk, -, rfl⟩ | ⟨b, -, -, rfl⟩ | ⟨c, d, -, -, rfl⟩ | ⟨c, d, -, -, -, rfl⟩ |
    ⟨c, d, -, -, -, -, rfl⟩ | ⟨-, -, rfl⟩ | ⟨b, -, -, -, rfl⟩ | ⟨b, -, -, -, rfl⟩ | ⟨-, -, rfl⟩ | ⟨hi, -, v, -, rfl⟩
  pick_goal 11
  · exact ⟨_, rfl, Nat.zero_le 5, fun _ => ⟨hi, rfl⟩⟩
  all_goals exact ⟨_, rfl, by decide, fun hne => absurd rfl hne⟩

/-! ## No stop from a state that meets the invariant (R26) -/

theorem exec_append_next {s : State} (b : Byte) (hI : Inv s) : ∃ t, exec (.append b) s = .next t := by
  cases hc : s.configured with
  | false => exact ⟨_, exec_append_notConstructed b hc⟩
  | true =>
    by_cases hf : s.bufCap = some s.bufLen
    · exact ⟨_, exec_append_full b hc hf⟩
    · have hroom : ∀ c, s.bufCap = some c → s.bufLen < c := fun c hcap =>
        Nat.lt_of_le_of_ne (hI.lenInCap c hcap) fun heq => hf (heq ▸ hcap)
      exact ⟨_, exec_append_stored b hc hroom⟩

theorem exec_finalize_next {s : State} (hI : Inv s) : ∃ t, exec .finalize s = .next t := by
  cases hc : s.configured with
  | false => exact ⟨_, exec_finalize_notConstructed hc⟩
  | true =>
    obtain ⟨M, hM⟩ := holds_of_isSome hI.bufHeld
    exact ⟨_, exec_finalize_of_phases hc (runPhases_holds hM)⟩

theorem exec_new_next (c d : Byte) (s : State) : ∃ t, exec (.new c d) s = .next t := by
  by_cases hk : s.keyCnt = 16
  · by_cases hz : c = 0 ∨ d = 0
    · exact ⟨_, exec_new_badRounds hk hz⟩
    · obtain ⟨hc, hd⟩ := not_or.1 hz
      exact ⟨_, exec_new_valid hk hc hd⟩
  · exact ⟨_, exec_new_badLength c d hk⟩

/-- Every command answers: room for the byte and the bytes held are what the invariant gives. -/
theorem exec_next_of_inv {s : State} (i : Instr) (hI : Inv s) : ∃ t, exec i s = .next t := by
  cases i with
  | keyclr => exact ⟨_, rfl⟩
  | keypush b => exact ⟨_, rfl⟩
  | new c d => exact exec_new_next c d s
  | append b => exact exec_append_next b hI
  | reset =>
    cases hc : s.configured with
    | false => exact ⟨_, exec_reset_notConstructed hc⟩
    | true => exact ⟨_, exec_reset_constructed hc⟩
  | finalize => exact exec_finalize_next hI

/-- A command word at the port of a state that meets the invariant is taken and answered once, legal or not. -/
theorem step_takes_word {s : State} {w : CmdWord} {rest : List PortEvent} (hI : Inv s)
    (hq : s.inbox = .command w :: rest) :
    ∃ t r, step s = .next t ∧ t.inbox = rest ∧ t.responses = s.responses ++ [r] := by
  cases hd : decode w with
  | error e => exact ⟨_, _, step_illegal hq hI.idle hd, rfl, rfl⟩
  | ok i =>
    obtain ⟨t, ht⟩ := exec_next_of_inv i (hI.setInbox rest)
    obtain ⟨hinbox, ⟨r, hr⟩, -⟩ := exec_port ht
    exact ⟨t, r, (step_accepted hq hI.idle hd).trans ht, hinbox, hr⟩

theorem step_next_of_inv {s : State} (hI : Inv s) : ∃ t, step s = .next t := by
  rcases hq : s.inbox with _ | ⟨w | _, rest⟩
  · exact ⟨s, step_nothing hq hI.idle⟩
  · obtain ⟨t, -, ht, -, -⟩ := step_takes_word hI hq
    exact ⟨t, ht⟩
  · exact ⟨_, step_hreset hq⟩

/-! ## A `FINALIZE` in progress (10_state R19, R119, R121) -/

/-- The phase a count leaves, and the response with which a `FINALIZE` ends. -/
theorem sequencerStep_progress {s t : State} (hp : s.phase ≠ .idle) (h : sequencerStep s = .ok t) :
    (t.phase = s.phase ∨
      (s.phase, t.phase) ∈ [(Phase.init, .blocks), (.blocks, .trail), (.trail, .final), (.final, .idle)]) ∧
    t.responses = s.responses ++ if t.phase = .idle then [⟨0, digestWord t.v⟩] else [] := by
  rcases sequencerStep_cases hp with ⟨v, p, j, n, hphase, hidle, e⟩ | ⟨hfinal, e⟩ | e
  · obtain rfl := Except.ok.inj (e.symm.trans h)
    refine ⟨hphase.imp_right fun hmem => ?_, by simp [hidle]⟩
    exact List.mem_append_left [(Phase.final, Phase.idle)] hmem
  · obtain rfl := Except.ok.inj (e.symm.trans h)
    exact ⟨.inr (by simp [hfinal]), by simp⟩
  · cases e.symm.trans h

/-- How many counts a `FINALIZE` in progress still takes at most: in each phase the rounds left of the word in hand, the
words left, and all of the phases to come. -/
def countsLeft (s : State) : Nat :=
  match s.phase with
  | .idle => 0
  | .final => s.fr.toNat - s.t + 1
  | .trail => s.cr.toNat - s.t + s.fr.toNat + 2
  | .blocks => (s.bufLen / 8 - s.j) * (s.cr.toNat + 1) + (s.cr.toNat - s.t) + s.cr.toNat + s.fr.toNat + 3
  | .init => s.bufLen / 8 * (s.cr.toNat + 1) + s.cr.toNat + s.cr.toNat + s.fr.toNat + 4

section
variable {s : State}

theorem sequencerStep_blocks {M : List Byte} (hs : s.phase = .blocks) (hM : holds s M) (hj : s.j < s.bufLen / 8) :
    sequencerStep s = .ok (wordStep (messageWord M s.j) (State.setJ (s.j + 1)) s) := by
  have hword : blockWord s s.j = .ok (messageWord M s.j) := blockWord_holds hM (hM.1 ▸ hj)
  simp only [sequencerStep, hs, blocksStep, if_pos hj, hword]

theorem sequencerStep_blocks_end (hs : s.phase = .blocks) (hj : s.bufLen / 8 ≤ s.j) :
    sequencerStep s = .ok ((s.setPhase .trail).setT 0) := by
  simp only [sequencerStep, hs, blocksStep, if_neg (Nat.not_lt.2 hj)]

theorem sequencerStep_trail {M : List Byte} (hs : s.phase = .trail) (hM : holds s M) :
    sequencerStep s = .ok (wordStep (messageTrail M) (State.setPhase .final) s) := by
  simp only [sequencerStep, hs, trailStep, trailWord_holds hM]

theorem sequencerStep_final (hs : s.phase = .final) : sequencerStep s = .ok (finalStep s) := by
  simp only [sequencerStep, hs]

/-- A count on a word of `BLOCKS` is one of its rounds, or folds the word in and goes to the next. -/
theorem countsLeft_wordStep_block (m : Word) (hs : s.phase = .blocks) (hj : s.j < s.bufLen / 8) :
    countsLeft (wordStep m (State.setJ (s.j + 1)) s) < countsLeft s := by
  have hleft : s.bufLen / 8 - s.j = s.bufLen / 8 - (s.j + 1) + 1 := by omega
  rcases Nat.lt_or_ge s.t s.cr.toNat with ht | ht
  · simp only [wordStep_round ht, countsLeft, hs]
    omega
  · simp only [wordStep_done ht, countsLeft, State.setJ, hs, hleft, Nat.add_mul]
    omega

theorem countsLeft_wordStep_trail (m : Word) (hs : s.phase = .trail) :
    countsLeft (wordStep m (State.setPhase .final) s) < countsLeft s := by
  rcases Nat.lt_or_ge s.t s.cr.toNat with ht | ht
  · simp only [wordStep_round ht, countsLeft, hs]
    omega
  · simp only [wordStep_done ht, countsLeft, State.setPhase, hs]
    omega

theorem countsLeft_finalStep (hs : s.phase = .final) : countsLeft (finalStep s) < countsLeft s := by
  rcases Nat.lt_or_ge s.t s.fr.toNat with ht | ht
  · simp only [finalStep_round ht, countsLeft, hs]
    omega
  · simp only [finalStep_done ht, countsLeft, hs]
    omega

/-- Over a message held, a count of the sequencer answers and is one of the counts left. -/
theorem sequencerStep_counts_down {M : List Byte} (hp : s.phase ≠ .idle) (hM : holds s M) :
    ∃ t, sequencerStep s = .ok t ∧ countsLeft t < countsLeft s := by
  cases hs : s.phase with
  | idle => exact absurd hs hp
  | init =>
    refine ⟨_, Safety.sequencerStep_init hs, ?_⟩
    simp only [countsLeft, hs, Nat.sub_zero]
    omega
  | blocks =>
    rcases Nat.lt_or_ge s.j (s.bufLen / 8) with hj | hj
    · exact ⟨_, sequencerStep_blocks hs hM hj, countsLeft_wordStep_block _ hs hj⟩
    · refine ⟨_, sequencerStep_blocks_end hs hj, ?_⟩
      simp only [countsLeft, hs, State.setT, State.setPhase]
      omega
  | trail => exact ⟨_, sequencerStep_trail hs hM, countsLeft_wordStep_trail _ hs⟩
  | final => exact ⟨_, sequencerStep_final hs, countsLeft_finalStep hs⟩

end

/-- With no hardware reset at the port, a `FINALIZE` in progress over a message held runs to its answer. -/
theorem run_finalize_in_progress {s : State} {M : List Byte} (hp : s.phase ≠ .idle)
    (hq : ∀ rest, s.inbox ≠ .hreset :: rest) (hM : holds s M) :
    ∃ (n : Nat) (t : State) (d : Word), core.run n s = .next t ∧ t.phase = .idle ∧ t.inbox = s.inbox ∧
      t.responses = s.responses ++ [⟨0, d⟩] := by
  induction hk : countsLeft s using Nat.strongRecOn generalizing s with
  | ind k ih =>
    subst hk
    obtain ⟨u, hu, hless⟩ := sequencerStep_counts_down hp hM
    have hstep : step s = .next u := (step_inProgress hp hq).trans (continueFinalize_of_sequencerStep hu)
    have hframe := sequencerStep_frame hp hu
    obtain ⟨-, hresp⟩ := sequencerStep_progress hp hu
    have hinbox : u.inbox = s.inbox := by rw [hframe]
    by_cases hidle : u.phase = .idle
    · rw [if_pos hidle] at hresp
      exact ⟨1, u, _, run_of_step hstep 0, hidle, hinbox, hresp⟩
    · rw [if_neg hidle, List.append_nil] at hresp
      have hMu : holds u M := by rw [hframe]; exact hM
      obtain ⟨n, t, d, hrun, ht, hq', hr⟩ := ih _ hless hidle (hinbox ▸ hq) hMu rfl
      exact ⟨n + 1, t, d, (run_of_step hstep n).trans hrun, ht, hq'.trans hinbox, hresp ▸ hr⟩

/-! ## The statements -/

/-- Settles O31: a step there is one count of the sequencer, and over a message held the counts left run out. -/
theorem finalizeInProgressRunsOnWhileWordsWait : Obligations.FinalizeInProgressRunsOnWhileWordsWait := by
  intro s hp hq
  refine ⟨fun t h => ?_, fun hheld => ?_⟩
  · have hcount : sequencerStep s = .ok t := continueFinalize_next ((step_inProgress hp hq).symm.trans h)
    exact ⟨sequencerStep_frame hp hcount, sequencerStep_progress hp hcount⟩
  · obtain ⟨M, hM⟩ := holds_of_isSome hheld
    exact run_finalize_in_progress hp hq hM

/-- Settles O40: the response is `exec_response`'s, and `be64` undoes `bytes_be`. -/
theorem everyCommandAnswersOnce : Obligations.EveryCommandAnswersOnce := by
  intro i s t h
  obtain ⟨r, hr, hcode, hdata⟩ := exec_response h
  exact ⟨r, hr, hcode, hdata, be64_bytesBe r.data⟩

/-- Settles O48. -/
theorem stepRunsTheDecodedCommand : Obligations.StepRunsTheDecodedCommand :=
  fun _ _ _ _ hp hq hd => step_accepted hq hp hd

/-- Settles O49: the word presented is at the head of the inbox of a ready port. -/
theorem presentedWordRunsNext : Obligations.PresentedWordRunsNext := by
  intro s nbits w i h
  have hd : decode (tableWord nbits w) = .ok i := by
    unfold decodeTableWord at h
    split at h
    · rename_i i' hi
      rw [hi, Option.some.inj h]
    · cases h
  exact step_accepted (s := s.withFetchWord nbits w) (rest := s.inbox) rfl rfl hd

/-- Settles O52. -/
theorem invariantStatesAlwaysStep : Obligations.InvariantStatesAlwaysStep := fun _ hI => step_next_of_inv hI

/-- Settles O59, by induction on the words: each is taken and answered once, and the invariant goes on to the next. -/
theorem oneResponsePerCommandWord : Obligations.OneResponsePerCommandWord := by
  intro s ws rest hI hq
  induction ws generalizing s with
  | nil => exact ⟨s, [], rfl, hq, rfl, (List.append_nil _).symm, hI.idle⟩
  | cons w ws ih =>
    obtain ⟨u, r, hstep, hinbox, hr⟩ := step_takes_word hI hq
    obtain ⟨t, rs, hrun, hrest, hlen, hresp, hidle⟩ := ih u (stepKeepsTheInvariant s u hI hstep) hinbox
    refine ⟨t, r :: rs, (run_of_step hstep _).trans hrun, hrest, congrArg (· + 1) hlen, ?_, hidle⟩
    rw [hresp, hr, List.append_assoc, List.singleton_append]

end Sys2Proof.Machine
end

section
/-! PROOFS. Key loading and construction (20_memory R34; 40_key R70 to R76): the words of the three commands, the key
halves as a bijection, each command's next state, and that no other command touches the staging. -/

namespace Sys2Proof.Machine

/-! ## The word of a command (30_encoding R52) -/

/-- A packed word is its fields, each at its place. -/
theorem packWord_eq_ofNat (o c d : Byte) :
    packWord o c d = BitVec.ofNat 32 (0x1000000 * o.toNat + 0x100 * c.toNat + d.toNat) := by
  rw [← toNat_packWord, BitVec.ofNat_toNat, BitVec.setWidth_eq]

/-! ## The key halves (R34, R73) -/

theorem keyHalves_fst_lane (key : Vector Byte 16) {i : Nat} (hi : i < 8) :
    (keyHalves key).1.extractLsb' (8 * i) 8 = key[i] := by
  rw [keyHalves, le64_lane _ hi]
  simp [hi]

theorem keyHalves_snd_lane (key : Vector Byte 16) {i : Nat} (hi : i < 8) :
    (keyHalves key).2.extractLsb' (8 * i) 8 = key[8 + i] := by
  rw [keyHalves, le64_lane _ hi]
  simp [show 8 + i < 16 by omega]

/-- The key whose halves are given: the byte lanes of the first word, then those of the second. -/
def keyOfHalves (k : Word × Word) : Vector Byte 16 :=
  Vector.ofFn fun i => if i.val < 8 then k.1.extractLsb' (8 * i) 8 else k.2.extractLsb' (8 * (i - 8)) 8

theorem keyHalves_keyOfHalves (k : Word × Word) : keyHalves (keyOfHalves k) = k := by
  refine Prod.ext (word_ext_lanes fun i hi => ?_) (word_ext_lanes fun i hi => ?_)
  · rw [keyHalves_fst_lane _ hi]
    simp [keyOfHalves, hi]
  · rw [keyHalves_snd_lane _ hi]
    simp [keyOfHalves]

/-- Each byte of a key is a lane of one of its halves. -/
theorem keyHalves_injective : Function.Injective keyHalves := by
  intro key key' h
  refine Vector.ext fun i hi => ?_
  rcases Nat.lt_or_ge i 8 with hlow | hhigh
  · rw [← keyHalves_fst_lane key hlow, h, keyHalves_fst_lane key' hlow]
  · obtain ⟨j, rfl⟩ := Nat.exists_eq_add_of_le hhigh
    have hj : j < 8 := by omega
    rw [← keyHalves_snd_lane key hj, h, keyHalves_snd_lane key' hj]

/-! ## What a command does to the staging (R76) -/

/-- A command keeps `KS` and, unless it is one of the three key commands, `KEYCNT`; or it is a `KEYPUSH` that stores its
byte at `KEYCNT`. -/
theorem exec_staging {i : Instr} {s t : State} (h : exec i s = .next t) :
    (t.ks = s.ks ∧ (t.keyCnt = s.keyCnt ∨ i = .keyclr ∨ (∃ b, i = .keypush b) ∨ ∃ c d, i = .new c d)) ∨
      ∃ b, ∃ hk : s.keyCnt < 16, i = .keypush b ∧ t.ks = s.ks.set s.keyCnt b hk := by
  rcases exec_cases h with ⟨hi, rfl⟩ | ⟨b, hk, hi, rfl⟩ | ⟨b, -, hi, rfl⟩ | ⟨c, d, -, hi, rfl⟩ | ⟨c, d, -, -, hi, rfl⟩ |
    ⟨c, d, -, -, -, hi, rfl⟩ | ⟨-, -, rfl⟩ | ⟨b, -, -, -, rfl⟩ | ⟨b, -, -, -, rfl⟩ | ⟨-, -, rfl⟩ | ⟨-, -, v, -, rfl⟩
  · exact .inl ⟨rfl, .inr (.inl hi)⟩
  · exact .inr ⟨b, hk, hi, rfl⟩
  · exact .inl ⟨rfl, .inr (.inr (.inl ⟨b, hi⟩))⟩
  iterate 3 exact .inl ⟨rfl, .inr (.inr (.inr ⟨c, d, hi⟩))⟩
  all_goals exact .inl ⟨rfl, .inl rfl⟩

/-- A command that is none of the three key commands keeps the staging. -/
theorem exec_keeps_staging {i : Instr} {s t : State} (hi : (∃ b, i = .append b) ∨ i = .reset ∨ i = .finalize)
    (h : exec i s = .next t) : t.ks = s.ks ∧ t.keyCnt = s.keyCnt := by
  rcases exec_staging h with ⟨hks, hcnt | hkey⟩ | ⟨b, -, hpush, -⟩
  · exact ⟨hks, hcnt⟩
  · rcases hi with ⟨b, rfl⟩ | rfl | rfl <;> simp at hkey
  · rcases hi with ⟨b, rfl⟩ | rfl | rfl <;> cases hpush

/-! ## The statements -/

/-- Settles O10: every key is determined by its byte lanes, and every pair of words has a key. -/
theorem keyHalvesAreLittleEndianAndBijective : Obligations.KeyHalvesAreLittleEndianAndBijective :=
  ⟨fun key _ hi => ⟨keyHalves_fst_lane key hi, keyHalves_snd_lane key hi⟩,
    keyHalves_injective, fun k => ⟨keyOfHalves k, keyHalves_keyOfHalves k⟩⟩

/-- Settles O43: the one write to `KS` is at the index `KEYCNT`. -/
theorem onlyKeyCommandsTouchTheStaging : Obligations.OnlyKeyCommandsTouchTheStaging := by
  intro i s t h
  refine ⟨fun hi => exec_keeps_staging hi h, fun k hk hne => ?_⟩
  rcases exec_staging h with ⟨hks, -⟩ | ⟨b, hroom, hi, hks⟩
  · exact absurd (by rw [hks]) hne
  · by_cases hat : s.keyCnt = k
    · subst hat
      exact ⟨by simp [hi, hks], rfl⟩
    · exact absurd (by rw [hks, Vector.getElem_set_ne hroom hk hat]) hne

/-- Settles O20. -/
theorem keyclrEmptiesTheStaging : Obligations.KeyclrEmptiesTheStaging :=
  ⟨packWord_eq_ofNat 1 0 0, fun _ => rfl⟩

/-- Settles O21: a push with room, and a push without. -/
theorem keypushStagesOneByte : Obligations.KeypushStagesOneByte := fun b _ =>
  ⟨packWord_eq_ofNat 2 0 b, exec_keypush_stored b, exec_keypush_dropped b⟩

/-- Settles O22: the checks of `NEW` in their order, key length first. -/
theorem newConstructsAnInstance : Obligations.NewConstructsAnInstance := fun c d _ =>
  ⟨packWord_eq_ofNat 3 c d, exec_new_badLength c d, exec_new_badRounds, exec_new_valid⟩

end Sys2Proof.Machine
end

section
/-! PROOFS. The buffer commands (41_buffer_commands R80 to R83): what `APPEND` and `RESET` answer, and the digest of a
message fed to an empty buffer, however it was emptied and in whatever chunks the message comes. -/

namespace Sys2Proof.Safety

open Sys2Proof.Machine

/-! ## What the buffer commands and `NEW` leave -/

/-- Above the capacity there is no address to store at (log 5). -/
theorem exec_append_above (b : Byte) {s : State} {c : Nat} (hc : s.configured = true) (hcap : s.bufCap = some c)
    (hlt : c < s.bufLen) : exec (.append b) s = .fault .outsideBuffer := by
  have hnoerror : appendError s = none := by
    simp [appendError, instanceError, hc, hcap, Nat.ne_of_lt hlt]
  have habsent : bufHas s.bufCap s.bufLen = false := by
    simp [bufHas, hcap, Nat.le_of_lt hlt]
  simp [exec, execAppend, hnoerror, habsent]

/-- Every `NEW` empties the buffer, also one that fails (R72, R139). -/
theorem bufLen_of_exec_new {c d : Byte} {s t : State} (h : exec (.new c d) s = .next t) : t.bufLen = 0 := by
  by_cases hk : s.keyCnt = 16
  · by_cases hz : c = 0 ∨ d = 0
    · rw [← Host.Outcome.next.inj ((exec_new_badRounds hk hz).symm.trans h)]
      rfl
    · obtain ⟨hc, hd⟩ := not_or.1 hz
      rw [← Host.Outcome.next.inj ((exec_new_valid hk hc hd).symm.trans h)]
      rfl
  · rw [← Host.Outcome.next.inj ((exec_new_badLength c d hk).symm.trans h)]
    rfl

/-! ## The digest of a message fed to the buffer -/

theorem holds_nil {s : State} (h : s.bufLen = 0) : holds s [] := ⟨h, fun _ ha => absurd ha (Nat.not_lt_zero _)⟩

theorem appends_append (a b : List Byte) : appends (a ++ b) = appends a ++ appends b := List.map_append

/-- The digest of a message under the instance's key halves and rounds. -/
def instanceDigest (s : State) (M : List Byte) : Word := digestWord (sipFinal s.cr.toNat s.fr.toNat s.k0 s.k1 M)

/-- Feeding `N` to a buffer that holds `M` and finalizing answers the digest of the whole. -/
theorem execAll_appends_finalize {s : State} {M : List Byte} (N : List Byte) (hc : s.configured = true)
    (hM : holds s M) (hroom : roomFor s (M.length + N.length)) :
    ∃ t, execAll (appends N ++ [.finalize]) s = .next t ∧ lastResponse t = some ⟨0, instanceDigest s (M ++ N)⟩ := by
  obtain ⟨m, hfed, hm⟩ := execAll_appends N hc hM hroom
  obtain ⟨t, hfinal, hresp⟩ := lastResponse_finalize_holds (s := { s with
      buf := m, bufLen := M.length + N.length, responses := s.responses ++ List.replicate N.length ⟨0, 0⟩ }) hc
    ⟨List.length_append.symm, hm⟩
  exact ⟨t, (execAll_append hfed).trans (execAll_cons hfinal), hresp⟩

/-- From an empty buffer the digest is that of the bytes fed. -/
theorem execAll_message {s : State} (M : List Byte) (hc : s.configured = true) (h0 : s.bufLen = 0)
    (hroom : roomFor s M.length) :
    ∃ t, execAll (appends M ++ [.finalize]) s = .next t ∧ lastResponse t = some ⟨0, instanceDigest s M⟩ := by
  simpa using execAll_appends_finalize M hc (holds_nil h0) (by simpa using hroom)

/-- A `RESET` first makes it so whatever the buffer held (R82). -/
theorem execAll_reset_message {s : State} (M : List Byte) (hc : s.configured = true) (hroom : roomFor s M.length) :
    ∃ t, execAll (.reset :: appends M ++ [.finalize]) s = .next t ∧
      lastResponse t = some ⟨0, instanceDigest s M⟩ := by
  obtain ⟨t, hrun, hresp⟩ := execAll_message (s := s.clearBuf.respondOk) M hc rfl hroom
  exact ⟨t, (execAll_cons (exec_reset_constructed hc)).trans hrun, hresp⟩

/-! ## The statements -/

/-- Settles O23: the checks of `APPEND` in their order, and what a byte stored reads as. -/
theorem appendStoresOneByte : Obligations.AppendStoresOneByte := fun b s =>
  ⟨packWord_eq_ofNat 4 0 b, exec_append_notConstructed b, exec_append_full b,
    fun hc hroom => ⟨s.buf.write s.bufLen b, exec_append_stored b hc hroom, Memory.read_write_self _ _ _,
      fun _ ha => Memory.read_write_ne _ b ha⟩,
    fun _ => exec_append_above b⟩

/-- Settles O24. -/
theorem resetCommandEmptiesTheBuffer : Obligations.ResetCommandEmptiesTheBuffer :=
  ⟨packWord_eq_ofNat 5 0 0, fun _ => ⟨exec_reset_notConstructed, exec_reset_constructed⟩⟩

/-- Settles O55: two chunks are the commands of one, and the buffer is empty with or without the `RESET`. -/
theorem chunkBoundariesAreInvisible : Obligations.ChunkBoundariesAreInvisible := by
  intro s a b hc h0 hroom
  have hroom : roomFor s (a ++ b).length := List.length_append ▸ hroom
  obtain ⟨t, hrun, hresp⟩ := execAll_message (a ++ b) hc h0 hroom
  obtain ⟨u, hrun', hresp'⟩ := execAll_reset_message (a ++ b) hc hroom
  exact ⟨t, u, instanceDigest s (a ++ b), appends_append a b ▸ hrun, hrun', hresp, hresp'⟩

/-- Settles O56: the used instance and the fresh one have the key halves and the rounds of the digest in common. -/
theorem resetMakesTheInstanceReusable : Obligations.ResetMakesTheInstanceReusable := by
  intro s fresh u c d M hc hroom hnew hu hcap hk0 hk1 hcr hfr
  obtain ⟨t, hrun, hresp⟩ := execAll_reset_message M hc hroom
  obtain ⟨t', hrun', hresp'⟩ := execAll_message M hu (bufLen_of_exec_new hnew) fun c e => hroom c (hcap ▸ e)
  have hdigest : instanceDigest u M = instanceDigest s M := by
    simp only [instanceDigest, hk0, hk1, hcr, hfr]
  exact ⟨t, t', _, hrun, hrun', hresp, hdigest ▸ hresp', rfl⟩

end Sys2Proof.Safety
end

section
/-! PROOFS. The engine's primitives (42_engine_primitives R92 to R94): the round and its inverse, the loop of rounds, and
the folding of a word into the state. -/

namespace Sys2Proof.Machine

/-! ## The inverse of a round (R92) -/

/-- The three assignments with which every step of the round begins, on the two words it works on (R92). -/
def addRotateXor (k : Nat) (p : Word × Word) : Word × Word :=
  (add64 p.1 p.2, rotl64 p.2 k ^^^ add64 p.1 p.2)

/-- R92's "subtract, rotate right, XOR again", in the order that takes them back. -/
def undoAddRotateXor (k : Nat) (p : Word × Word) : Word × Word :=
  (p.1 - rotl64 (p.2 ^^^ p.1) (64 - k), rotl64 (p.2 ^^^ p.1) (64 - k))

theorem undoAddRotateXor_addRotateXor {k : Nat} (h1 : 1 ≤ k) (h2 : k ≤ 63) (p : Word × Word) :
    undoAddRotateXor k (addRotateXor k p) = p := by
  have hright : rotl64 (rotl64 p.2 k ^^^ add64 p.1 p.2 ^^^ add64 p.1 p.2) (64 - k) = p.2 := by
    rw [BitVec.xor_assoc, BitVec.xor_self, BitVec.xor_zero, rotl64_rotl64 _ h1 h2]
  simp only [undoAddRotateXor, addRotateXor, hright]
  rw [add64, BitVec.add_sub_cancel]

theorem addRotateXor_undoAddRotateXor {k : Nat} (h1 : 1 ≤ k) (h2 : k ≤ 63) (p : Word × Word) :
    addRotateXor k (undoAddRotateXor k p) = p := by
  have hrot : rotl64 (rotl64 (p.2 ^^^ p.1) (64 - k)) k = p.2 ^^^ p.1 := by
    simpa only [Nat.sub_sub_self (Nat.le_succ_of_le h2)] using
      rotl64_rotl64 (p.2 ^^^ p.1) (k := 64 - k) (by omega) (by omega)
  simp only [addRotateXor, undoAddRotateXor, add64, hrot, BitVec.sub_add_cancel]
  rw [BitVec.xor_assoc, BitVec.xor_self, BitVec.xor_zero]

/-- Rotating by half a word twice gives the word back. -/
theorem rotl64_half_half (n : Word) : rotl64 (rotl64 n 32) 32 = n := rotl64_rotl64 n (by decide) (by decide)

/-- The round as its four steps: 1 and 2 on `(V[0], V[1])` and `(V[2], V[3])`, then 3 and 4 on `(V[0], V[3])` and
`(V[2], V[1])`. -/
theorem sipRound_eq_steps (v : VRegs) :
    sipRound v =
      let p := addRotateXor 13 (v.v0, v.v1)
      let q := addRotateXor 16 (v.v2, v.v3)
      let r := addRotateXor 21 (rotl64 p.1 32, q.2)
      let u := addRotateXor 17 (q.1, p.2)
      ⟨r.1, u.2, rotl64 u.1 32, r.2⟩ := rfl

/-- The four steps of the round undone, the last ones first. -/
def undoSipRound (w : VRegs) : VRegs :=
  let u := undoAddRotateXor 17 (rotl64 w.v2 32, w.v1)
  let r := undoAddRotateXor 21 (w.v0, w.v3)
  let q := undoAddRotateXor 16 (u.1, r.2)
  let p := undoAddRotateXor 13 (rotl64 r.1 32, u.2)
  ⟨p.1, p.2, q.1, q.2⟩

theorem undoSipRound_sipRound : Function.LeftInverse undoSipRound sipRound := fun v => by
  simp [sipRound_eq_steps, undoSipRound, undoAddRotateXor_addRotateXor, rotl64_half_half]

theorem sipRound_undoSipRound : Function.RightInverse undoSipRound sipRound := fun w => by
  simp [sipRound_eq_steps, undoSipRound, addRotateXor_undoAddRotateXor, rotl64_half_half]

theorem sipRound_bijective : Function.Bijective sipRound :=
  ⟨undoSipRound_sipRound.injective, sipRound_undoSipRound.surjective⟩

/-! ## The statements -/

/-- Settles O12: the equations are the assignments substituted in order, and the round has an inverse on both sides. -/
theorem sipRoundIsTheRuleAndABijection : Obligations.SipRoundIsTheRuleAndABijection :=
  ⟨fun _ _ _ _ => rfl, by decide, sipRound_bijective⟩

/-- Settles O13: the first two clauses are the recursion, the third the loop's effect on the registers. -/
theorem roundLoopCountsItsRounds : Obligations.RoundLoopCountsItsRounds :=
  ⟨fun _ => rfl, fun _ _ => rfl, runRounds_eq⟩

/-- Settles O14: the registers end with the function's value, and the counter at `CR`. -/
theorem compressWordBracketsTheRounds : Obligations.CompressWordBracketsTheRounds := fun m s =>
  ⟨rfl, s.cr.toNat, seqCompress_eq m s⟩

end Sys2Proof.Machine
end

section
/-! PROOFS. The digest (43_finalize R112 to R122): the words the phases fold in, lane by lane; what the final words depend
on; and the whole next state of a `FINALIZE` over a message held. -/

namespace Sys2Proof.Safety

open Sys2Proof.Machine

/-! ## The words folded in (R112, R114) -/

theorem memRead_of_bytes {s : State} {a : Nat} {bs : List Byte} (hin : a + bs.length ≤ s.bufLen)
    (hread : ∀ i, (h : i < bs.length) → s.buf.read (a + i) = some bs[i]) : memRead s a bs.length = .ok bs :=
  (memRead_inside hin).trans (readBytes_ok hread)

/-- One position of `TrailWord`: leftover byte `k` goes to lane `k`, if there is one (R114). -/
def placeByte (n : Nat) (tail : List Byte) (w : Word) (k : Nat) : Word :=
  if n % 8 > k then w ||| byteAt tail k <<< (8 * k) else w

theorem trailPlace_eq_foldl (n : Nat) (tail : List Byte) :
    trailPlace n tail = [0, 1, 2, 3, 4, 5, 6].foldl (placeByte n tail) (BitVec.ofNat 64 (n % 256) <<< 56) := rfl

theorem lane_placeByte (n : Nat) (tail : List Byte) (w : Word) (k : Nat) {i : Nat} (hi : i < 8) :
    (placeByte n tail w k).extractLsb' (8 * i) 8 =
      w.extractLsb' (8 * i) 8 ||| if i = k ∧ i < n % 8 then tail.getD i 0 else 0 := by
  by_cases hik : i = k
  · subst hik
    by_cases hn : i < n % 8
    · simp [placeByte, hn, lane_or, lane_byteAt_shift tail i hi]
    · simp [placeByte, hn]
  · unfold placeByte
    split <;> simp [lane_or, lane_byteAt_shift tail k hi, hik]

/-- Placing bytes at the positions of a list fills the lanes of the list that have a leftover byte. -/
theorem lane_foldl_placeByte (n : Nat) (tail : List Byte) (ks : List Nat) (w : Word) {i : Nat} (hi : i < 8) :
    (ks.foldl (placeByte n tail) w).extractLsb' (8 * i) 8 =
      w.extractLsb' (8 * i) 8 ||| if i ∈ ks ∧ i < n % 8 then tail.getD i 0 else 0 := by
  induction ks generalizing w with
  | nil => simp
  | cons k ks ih =>
    rw [List.foldl_cons, ih, lane_placeByte n tail w k hi]
    by_cases hik : i = k
    · subst hik
      by_cases hks : i ∈ ks <;> simp [hks, BitVec.or_assoc]
    · simp [hik]

/-- The length byte is lane 7 before any byte is placed. -/
theorem lane_lengthByte (n : Nat) {i : Nat} (hi : i < 8) :
    (BitVec.ofNat 64 (n % 256) <<< 56).extractLsb' (8 * i) 8 = if i = 7 then BitVec.ofNat 8 n else 0 := by
  have hbyte : BitVec.ofNat 64 (n % 256) = (BitVec.ofNat 8 n).setWidth 64 := by
    apply BitVec.eq_of_toNat_eq
    simp
  rw [hbyte]
  exact lane_shift _ (j := 7) hi

/-- `TrailWord`, lane by lane: the length byte on top, a leftover byte where there is one, and 0 between. -/
theorem trailPlace_lane (n : Nat) (tail : List Byte) {i : Nat} (hi : i < 8) :
    (trailPlace n tail).extractLsb' (8 * i) 8 =
      if i = 7 then BitVec.ofNat 8 n else if i < n % 8 then tail.getD i 0 else 0 := by
  rw [trailPlace_eq_foldl, lane_foldl_placeByte _ _ _ _ hi, lane_lengthByte n hi]
  by_cases h7 : i = 7
  · simp [h7]
  · have hmem : i ∈ [0, 1, 2, 3, 4, 5, 6] := by simp; omega
    simp only [h7, hmem, if_false, true_and]
    exact BitVec.zero_or

/-! ## What the final words depend on (R122) -/

theorem messageWord_append {M : List Byte} (N : List Byte) {j : Nat} (hj : j < M.length / 8) :
    messageWord (M ++ N) j = messageWord M j := by
  rw [messageWord, messageWord, List.drop_append_of_le_length (by omega), List.take_append_of_le_length]
  rw [List.length_drop]
  omega

/-- Bytes appended do not change the chain over the full blocks before them. -/
theorem chain_append (c : Nat) (k0 k1 : Word) {M : List Byte} (N : List Byte) {j : Nat} (hj : j ≤ M.length / 8) :
    chain c k0 k1 (M ++ N) j = chain c k0 k1 M j := by
  induction j with
  | zero => rfl
  | succ j ih => rw [chain, chain, ih (Nat.le_of_lt hj), messageWord_append N hj]

/-- `TrailWord` reads the length modulo 256 only. -/
theorem trailPlace_congr {n n' : Nat} (tail : List Byte) (h : n % 256 = n' % 256) :
    trailPlace n tail = trailPlace n' tail := by
  have h8 : n % 8 = n' % 8 := by omega
  rw [trailPlace, trailPlace, h, h8]

/-! ## The whole command (R110, R117, R121) -/

/-- The machine after a `FINALIZE` over the message `M`. -/
def withDigest (s : State) (M : List Byte) : State :=
  { s with
    v := sipFinal s.cr.toNat s.fr.toNat s.k0 s.k1 M, phase := .idle, j := s.bufLen / 8, t := s.fr.toNat,
    responses := s.responses ++ [⟨0, instanceDigest s M⟩] }

theorem exec_finalize_holds {s : State} {M : List Byte} (hc : s.configured = true) (hM : holds s M) :
    exec .finalize s = .next (withDigest s M) :=
  exec_finalize_of_phases hc (runPhases_holds hM)

/-- A `FINALIZE` that answers has read a message held, and answers its digest. -/
theorem eq_withDigest_of_exec_finalize {s t : State} (hc : s.configured = true) (h : exec .finalize s = .next t) :
    ∃ M, holds s M ∧ t = withDigest s M := by
  obtain ⟨v, hphases, -⟩ := exec_finalize_constructed hc h
  obtain ⟨M, hM⟩ := holds_of_runPhases hphases
  exact ⟨M, hM, Host.Outcome.next.inj (h.symm.trans (exec_finalize_holds hc hM))⟩

/-- The digest leaves the instance and its message as they are, for the next command to use (R120). -/
theorem holds_withDigest {s : State} {M N : List Byte} (hM : holds s M) : holds (withDigest s N) M := hM

theorem instanceDigest_withDigest (s : State) (M N : List Byte) :
    instanceDigest (withDigest s M) N = instanceDigest s N := rfl

theorem exec_finalize_unheld {s : State} {a : Nat} (hc : s.configured = true) (ha : a < s.bufLen)
    (hread : s.buf.read a = none) : exec .finalize s = .fault .noByte := by
  rcases runPhases_cases s with ⟨v, hphases⟩ | hphases
  · have hheld := isSome_of_runPhases hphases ha
    simp [hread] at hheld
  · simp only [exec, execFinalize, instanceError, hc, if_true, hphases]

/-- The digest of the instance is `SipHash` under any key with its halves. -/
theorem instanceDigest_eq_sipHash {s : State} {key : Vector Byte 16} (M : List Byte)
    (hk : keyHalves key = (s.k0, s.k1)) : instanceDigest s M = sipHash s.cr.toNat s.fr.toNat key M := by
  rw [instanceDigest, sipHash, hk]

/-! ## The statements -/

/-- Settles O16: the block is read whole, and `le64` puts byte `i` in lane `i`. -/
theorem blockWordIsLittleEndian : Obligations.BlockWordIsLittleEndian := by
  intro s j bs hj hlen hread
  have hmem := memRead_of_bytes (s := s) (a := 8 * j) (bs := bs) (by omega) hread
  rw [hlen] at hmem
  refine ⟨le64 bs, by rw [blockWord, hmem], fun i h => ?_⟩
  rw [le64_lane bs (hlen ▸ h), List.getD_eq_getElem bs 0 h]

/-- Settles O17: the leftover bytes are read whole, and `trailPlace_lane` names every lane. -/
theorem trailWordLayout : Obligations.TrailWordLayout := by
  intro s bs hlen hread
  have hmem := memRead_of_bytes (s := s) (a := s.bufLen - s.bufLen % 8) (bs := bs)
    (by have := Nat.mod_le s.bufLen 8; omega) hread
  rw [hlen] at hmem
  have hshort : s.bufLen % 8 < 8 := Nat.mod_lt _ (by decide)
  refine ⟨trailPlace s.bufLen bs, by rw [trailWord, hmem], ?_, fun i h => ?_, fun i hge hlt => ?_⟩
  · rw [show 56 = 8 * 7 from rfl, trailPlace_lane _ _ (by decide), if_pos rfl, BitVec.toNat_ofNat]
  · rw [trailPlace_lane _ _ (by omega), if_neg (by omega), if_pos (hlen ▸ h), List.getD_eq_getElem bs 0 h]
  · rw [trailPlace_lane _ _ (by omega), if_neg (by omega), if_neg (by omega)]

/-- Settles O18. -/
theorem finalPhaseRunsFrRounds : Obligations.FinalPhaseRunsFrRounds :=
  ⟨fun s => congrArg State.v (finalPhase_eq s), fun _ => rfl⟩

/-- Settles O19: the final words are made of the last chain value and the trailing word. -/
theorem chainPrefixDeterminesTheDigest : Obligations.ChainPrefixDeterminesTheDigest := by
  refine ⟨fun c k0 k1 M N j => chain_append c k0 k1 N, fun c d k0 k1 k0' k1' M M' hchain htail hlen => ?_⟩
  have htrail : messageTrail M = messageTrail M' := by
    rw [messageTrail, messageTrail, htail, trailPlace_congr _ hlen]
  rw [sipFinal, sipFinal, hchain, htrail]

/-- Settles O25. -/
theorem finalizeAnswersTheDigest : Obligations.FinalizeAnswersTheDigest := by
  refine ⟨packWord_eq_ofNat 6 0 0, fun s => ⟨exec_finalize_notConstructed, fun M key hc hM hk => ?_⟩⟩
  exact ⟨s.bufLen / 8, s.fr.toNat, instanceDigest_eq_sipHash M hk ▸ exec_finalize_holds hc hM⟩

/-- Settles O27: the response is the XOR of the words left in `V`, and its bytes are the lanes from the top down. -/
theorem digestBytesAreMostSignificantFirst : Obligations.DigestBytesAreMostSignificantFirst := by
  intro s t hc h
  obtain ⟨v, -, rfl⟩ := exec_finalize_constructed hc h
  refine ⟨⟨0, digestWord v⟩, rfl, rfl, rfl, length_bytesBe _, fun j hj => ?_⟩
  rw [show 56 - 8 * j = 8 * (7 - j) by omega]
  exact bytesBe_getElem? (digestWord v) hj

/-- Settles O28: with every byte held the buffer holds a message; and phases that end have read every byte. -/
theorem finalizeEndsWithOkOrStopsOnAnUnheldByte : Obligations.FinalizeEndsWithOkOrStopsOnAnUnheldByte := by
  intro s hc
  refine ⟨fun hheld => ?_, fun a => exec_finalize_unheld hc⟩
  obtain ⟨M, hM⟩ := holds_of_isSome hheld
  exact ⟨_, _, exec_finalize_holds hc hM, rfl⟩

/-- Settles O29: the message, the key and the rounds are still there, so the second digest and the engine's registers
are those of the first. -/
theorem finalizeRepeats : Obligations.FinalizeRepeats := by
  intro s t hc h
  obtain ⟨M, hM, rfl⟩ := eq_withDigest_of_exec_finalize hc h
  exact ⟨⟨rfl, rfl, rfl, rfl, rfl, rfl, rfl, rfl, rfl⟩, ⟨0, instanceDigest s M⟩, rfl,
    exec_finalize_holds hc (holds_withDigest hM)⟩

/-- Settles O57: the first `FINALIZE` leaves the message, the key and the rounds for the `APPEND`s to extend. -/
theorem appendAfterFinalizeExtendsTheMessage : Obligations.AppendAfterFinalizeExtendsTheMessage := by
  intro s M N key hc hM hroom hk
  obtain ⟨t, hrun, hresp⟩ := execAll_appends_finalize (s := withDigest s M) N hc (holds_withDigest hM) hroom
  rw [instanceDigest_withDigest, instanceDigest_eq_sipHash (M ++ N) hk] at hresp
  exact ⟨t, (execAll_cons (exec_finalize_holds hc hM)).trans hrun, hresp⟩

end Sys2Proof.Safety
end

section
/-! PROOFS. The sequencer one count at a time comes to the state `FINALIZE` answers (10_state R19; 42_engine_primitives R93
and R94; 43_finalize R113 to R116; log 11): a word's counts compress it, the blocks' counts follow the chain. -/

namespace Sys2Proof.Safety

open Sys2Proof.Machine

/-- Some number of steps from `s` answers `t`. -/
def reaches (s t : State) : Prop := ∃ n, core.run n s = .next t

section
variable {s t : State} (hp : s.phase ≠ .idle) (hq : ∀ rest, s.inbox ≠ .hreset :: rest)
include hp hq

theorem reaches_of_count {u : State} (hu : sequencerStep s = .ok u) (h : reaches u t) : reaches s t := by
  obtain ⟨n, hrun⟩ := h
  have hstep : step s = .next u := (step_inProgress hp hq).trans (continueFinalize_of_sequencerStep hu)
  exact ⟨n + 1, (run_of_step hstep n).trans hrun⟩

/-- The counts of a loop of `N` rounds, `n` of them done, leave the rounds' result in `V` and `N` in `T`; the first
count also does what comes before the loop. -/
theorem reaches_of_rounds {before : VRegs → VRegs} {N : Nat}
    (hround : ∀ v n, n < N → sequencerStep { s with v := v, t := n } =
      .ok { s with v := sipRound (if n = 0 then before v else v), t := n + 1 })
    (k n : Nat) (v : VRegs) (hpos : 0 < n + k) (hN : n + k = N)
    (h : reaches { s with v := sipRounds k (if n = 0 then before v else v), t := N } t) :
    reaches { s with v := v, t := n } t := by
  induction k generalizing n v with
  | zero =>
    obtain rfl : n = N := hN
    have hne : n ≠ 0 := Nat.ne_of_gt hpos
    rwa [if_neg hne] at h
  | succ k ih =>
    refine reaches_of_count hp hq (hround v n (by omega)) (ih (n + 1) _ (by omega) (by omega) ?_)
    rwa [if_neg (Nat.succ_ne_zero n)]

/-- The counts on a word are `CompressWord`, then what comes after it (R94). -/
theorem reaches_of_word {m : Word} {after : State → State} (hcr : 0 < s.cr.toNat) (ht : s.t = 0)
    (hword : ∀ v n, sequencerStep { s with v := v, t := n } = .ok (wordStep m after { s with v := v, t := n }))
    (h : reaches (after { s with v := compressWord s.cr.toNat m s.v, t := 0 }) t) : reaches s t := by
  have hstart : s = { s with v := s.v, t := 0 } := by rw [← ht]
  rw [hstart]
  refine reaches_of_rounds hp hq (before := mixIn m)
    (fun v n hn => (hword v n).trans (congrArg Except.ok (wordStep_round hn))) s.cr.toNat 0 s.v (by omega)
    (Nat.zero_add _) (reaches_of_count hp hq ((hword _ _).trans (congrArg Except.ok (wordStep_done (Nat.le_refl _)))) ?_)
  rwa [if_pos rfl]

end

/-- `FINAL` runs its rounds and answers (R116, R117). -/
theorem reaches_of_final {s : State} (hq : ∀ rest, s.inbox ≠ .hreset :: rest) (hs : s.phase = .final)
    (hfr : 0 < s.fr.toNat) (ht : s.t = 0) :
    reaches s { s with
      v := sipRounds s.fr.toNat (finalMix s.v), phase := .idle, t := s.fr.toNat,
      responses := s.responses ++ [⟨0, digestWord (sipRounds s.fr.toNat (finalMix s.v))⟩] } := by
  have hp : s.phase ≠ .idle := by simp [hs]
  have hcount (v : VRegs) (n : Nat) :
      sequencerStep { s with v := v, t := n } = .ok (finalStep { s with v := v, t := n }) :=
    sequencerStep_final (s := { s with v := v, t := n }) hs
  have hrun := reaches_of_rounds hp hq (before := finalMix)
    (fun v n hn => (hcount v n).trans (congrArg Except.ok (finalStep_round hn))) s.fr.toNat 0 s.v (by omega)
    (Nat.zero_add _) (reaches_of_count hp hq ((hcount _ _).trans (congrArg Except.ok (finalStep_done (Nat.le_refl _))))
      ⟨0, rfl⟩)
  rwa [if_pos rfl, ← ht] at hrun

section
variable {s t : State} {M : List Byte} (hM : holds s M) (hq : ∀ rest, s.inbox ≠ .hreset :: rest)
include hM hq

/-- `BLOCKS` from block `J` on carries `V` along the chain, then comes `TRAIL` (R113, R122). -/
theorem reaches_of_blocks {k0 k1 : Word} (hs : s.phase = .blocks) (hcr : 0 < s.cr.toNat) (ht : s.t = 0) (k : Nat)
    (hj : s.j + k = s.bufLen / 8) (hv : s.v = chain s.cr.toNat k0 k1 M s.j)
    (h : reaches { s with
      v := chain s.cr.toNat k0 k1 M (s.bufLen / 8), phase := .trail, j := s.bufLen / 8, t := 0 } t) :
    reaches s t := by
  induction k generalizing s with
  | zero =>
    have hend : s.j = s.bufLen / 8 := hj
    rw [← hend, ← hv] at h
    exact reaches_of_count (by simp [hs]) hq (sequencerStep_blocks_end hs (Nat.le_of_eq hend.symm)) h
  | succ k ih =>
    have hlt : s.j < s.bufLen / 8 := by omega
    refine reaches_of_word (by simp [hs]) hq (m := messageWord M s.j) (after := State.setJ (s.j + 1)) hcr ht
      (fun v n => sequencerStep_blocks (s := { s with v := v, t := n }) hs hM hlt) ?_
    exact ih hM hq hs hcr rfl ((Nat.add_right_comm s.j 1 k).trans hj)
      (congrArg (compressWord s.cr.toNat (messageWord M s.j)) hv) h

/-- `TRAIL` compresses the trailing word, then comes `FINAL` (R115). -/
theorem reaches_of_trail (hs : s.phase = .trail) (hcr : 0 < s.cr.toNat) (ht : s.t = 0)
    (h : reaches { s with v := compressWord s.cr.toNat (messageTrail M) s.v, phase := .final, t := 0 } t) :
    reaches s t :=
  reaches_of_word (by simp [hs]) hq hcr ht (fun v n => sequencerStep_trail (s := { s with v := v, t := n }) hs hM) h

/-- The counts from `INIT` on come to the machine with the message's digest (R110, R118). -/
theorem reaches_withDigest (hs : s.phase = .init) (hcr : 0 < s.cr.toNat) (hfr : 0 < s.fr.toNat) :
    reaches s (withDigest s M) := by
  rw [withDigest, instanceDigest, sipFinal, ← hM.1]
  refine reaches_of_count (by simp [hs]) hq (sequencerStep_init hs) ?_
  refine reaches_of_blocks hM hq rfl hcr rfl (s.bufLen / 8) (Nat.zero_add _) rfl ?_
  exact reaches_of_trail hM hq rfl hcr rfl (reaches_of_final hq rfl hfr rfl)

end

/-- Settles O32: the `FINALIZE` that answers holds a message, whose digest the counts come to as well. -/
theorem sequencerCountsComeToTheFinalizeState : Obligations.SequencerCountsComeToTheFinalizeState := by
  intro s t hc hcr hfr hq h
  have hpos {b : Byte} (hb : b ≠ 0) : 0 < b.toNat := Nat.pos_of_ne_zero fun h0 => hb ((roundCount_eq_zero b).1 h0)
  obtain ⟨M, hM, rfl⟩ := eq_withDigest_of_exec_finalize hc h
  exact reaches_withDigest (s := { s with phase := .init }) hM hq rfl (hpos hcr) (hpos hfr)

end Sys2Proof.Safety
end

section
/-! PROOFS. A whole use of the machine through the port (30_encoding R51; 70_reset R152; 43_finalize R118): a run over the
words of a list of commands is the commands executed in a row. -/

namespace Sys2Proof.Safety

open Sys2Proof.Machine

/-! ## Words at the port and commands in a row -/

/-- A command does the same whatever is still to come at the port, and leaves it there. -/
theorem exec_setInbox {i : Instr} {s t : State} (q : List PortEvent) (h : exec i s = .next t) :
    exec i (s.setInbox q) = .next (t.setInbox q) := by
  rcases exec_cases h with ⟨rfl, rfl⟩ | ⟨b, hk, rfl, rfl⟩ | ⟨b, hk, rfl, rfl⟩ | ⟨c, d, hk, rfl, rfl⟩ |
    ⟨c, d, hk, hz, rfl, rfl⟩ | ⟨c, d, hk, hc, hd, rfl, rfl⟩ | ⟨hi, hc, rfl⟩ | ⟨b, rfl, hc, hf, rfl⟩ |
    ⟨b, rfl, hc, hr, rfl⟩ | ⟨rfl, hc, rfl⟩ | ⟨rfl, hc, -⟩
  · rfl
  · exact exec_keypush_stored b (s := s.setInbox q) hk
  · exact exec_keypush_dropped b (s := s.setInbox q) hk
  · exact exec_new_badLength c d hk
  · exact exec_new_badRounds hk hz
  · exact exec_new_valid hk hc hd
  · rcases hi with ⟨b, rfl⟩ | rfl | rfl
    · exact exec_append_notConstructed b hc
    · exact exec_reset_notConstructed hc
    · exact exec_finalize_notConstructed hc
  · exact exec_append_full b hc hf
  · exact exec_append_stored b hc hr
  · exact exec_reset_constructed hc
  · obtain ⟨M, hM, rfl⟩ := eq_withDigest_of_exec_finalize hc h
    exact exec_finalize_holds hc hM

/-- What the host presents for a list of commands: their words, in order. -/
def wordsOf (is : List Instr) : List PortEvent := is.map fun i => .command (encode i)

/-- Presented at an idle port, a list of commands is executed in a row, one step a word, and the rest is left. -/
theorem run_wordsOf {is : List Instr} {s t : State} {rest : List PortEvent} (hp : s.phase = .idle)
    (hq : s.inbox = wordsOf is ++ rest) (h : execAll is (s.setInbox rest) = .next t) :
    core.run is.length s = .next t := by
  induction is generalizing s with
  | nil =>
    have hs : s.setInbox rest = s := by rw [← show s.inbox = rest from hq]; rfl
    exact hs ▸ h
  | cons i is ih =>
    rw [execAll] at h
    split at h
    · rename_i u hu
      have hexec : exec i (s.setInbox (wordsOf is ++ rest)) = .next (u.setInbox (wordsOf is ++ rest)) :=
        exec_setInbox (s := s.setInbox rest) _ hu
      have hstep := (step_accepted hq hp (decode_encode i)).trans hexec
      obtain ⟨hinbox, -, hidle⟩ := exec_port hu
      have hback : (u.setInbox (wordsOf is ++ rest)).setInbox rest = u := by
        rw [← show u.inbox = rest from hinbox]; rfl
      exact (run_of_step hstep _).trans (ih (hidle hp) rfl (hback ▸ h))
    · cases h
    · cases h

/-! ## A key pushed and a message fed -/

/-- A `KEYPUSH` changes nothing but the staging, and answers OK (R71). -/
theorem exec_keypush_frame {b : Byte} {s t : State} (h : exec (.keypush b) s = .next t) :
    t = { s with ks := t.ks, keyCnt := t.keyCnt, responses := s.responses ++ [⟨0, 0⟩] } := by
  rcases Nat.lt_or_ge s.keyCnt 16 with hk | hk
  · cases (exec_keypush_stored b hk).symm.trans h
    rfl
  · cases (exec_keypush_dropped b hk).symm.trans h
    rfl

theorem execAll_pushes_frame {L : List Byte} {s t : State} (h : execAll (pushes L) s = .next t) :
    t = { s with
      ks := t.ks, keyCnt := t.keyCnt, responses := s.responses ++ List.replicate L.length ⟨0, 0⟩ } := by
  induction L generalizing s with
  | nil =>
    cases h
    simp
  | cons b L ih =>
    obtain ⟨u, hu⟩ : ∃ u, exec (.keypush b) s = .next u := ⟨_, rfl⟩
    have hrun : execAll (pushes L) u = .next t := (execAll_cons hu).symm.trans h
    rw [ih hrun, exec_keypush_frame hu]
    simp [List.replicate_succ]

/-- Sixteen bytes pushed onto an empty staging are the key staged. -/
theorem execAll_pushes_key {s : State} (key : Vector Byte 16) (h0 : s.keyCnt = 0) :
    execAll (pushes key.toList) s = .next { s with
      ks := key, keyCnt := 16, responses := s.responses ++ List.replicate 16 ⟨0, 0⟩ } := by
  obtain ⟨t, hrun, hcnt, hks⟩ := execAll_pushes_stagingHolds key.toList (stagingHolds_nil h0)
  have hkey : t.ks = key := Vector.ext fun i hi => by simpa using hks i hi (by simpa using hi)
  have hlen : t.keyCnt = 16 := by simpa using hcnt
  rw [hrun, execAll_pushes_frame hrun, hkey, hlen]
  simp

/-- A key pushed and a valid `NEW` make an instance with an empty buffer, whose digest is `SipHash` under the key. -/
theorem execAll_key_new {s : State} (key : Vector Byte 16) {c d : Byte} (h0 : s.keyCnt = 0) (hc : c ≠ 0)
    (hd : d ≠ 0) :
    ∃ u, execAll (pushes key.toList ++ [.new c d]) s = .next u ∧ u.configured = true ∧ u.bufLen = 0 ∧
      u.bufCap = s.bufCap ∧ u.inbox = s.inbox ∧ u.responses = s.responses ++ List.replicate 17 ⟨0, 0⟩ ∧
      ∀ M, instanceDigest u M = sipHash c.toNat d.toNat key M := by
  have hnew := exec_new_valid (s := { s with
    ks := key, keyCnt := 16, responses := s.responses ++ List.replicate 16 ⟨0, 0⟩ }) rfl hc hd
  exact ⟨_, (execAll_append (execAll_pushes_key key h0)).trans (execAll_cons hnew), rfl, rfl, rfl, rfl, by simp,
    fun M => instanceDigest_eq_sipHash M rfl⟩

/-- A message fed to an empty buffer and finalized: a response `(0, 0)` a byte, then the digest (R80, R117). -/
theorem execAll_message_responses {s : State} (M : List Byte) (hc : s.configured = true) (h0 : s.bufLen = 0)
    (hroom : roomFor s M.length) :
    ∃ t, execAll (appends M ++ [.finalize]) s = .next t ∧ t.inbox = s.inbox ∧
      t.responses = s.responses ++ List.replicate M.length ⟨0, 0⟩ ++ [⟨0, instanceDigest s M⟩] := by
  obtain ⟨m, hfed, hm⟩ := execAll_appends M hc (holds_nil h0) (by simpa using hroom)
  have hfinal := exec_finalize_holds (s := { s with
      buf := m, bufLen := ([] : List Byte).length + M.length,
      responses := s.responses ++ List.replicate M.length ⟨0, 0⟩ }) (M := M) hc ⟨by simp, hm⟩
  exact ⟨_, (execAll_append hfed).trans (execAll_cons hfinal), rfl, rfl⟩

/-! ## The statement -/

/-- Settles O58: the words run as the commands in a row, which stage the key, install it and answer the digest. -/
theorem keyedMessageThroughThePortIsHashed : Obligations.KeyedMessageThroughThePortIsHashed := by
  intro s key c d M rest hp h0 hc hd hroom hq
  obtain ⟨u, hkey, hu, hempty, hcap, huinbox, huresp, hdigest⟩ := execAll_key_new (s := s.setInbox rest) key h0 hc hd
  obtain ⟨t, hmsg, htinbox, htresp⟩ := execAll_message_responses M hu hempty fun n hn => hroom n (hcap ▸ hn)
  have hrun := (execAll_append hkey).trans hmsg
  have hlen : (pushes key.toList ++ Instr.new c d :: appends M ++ [Instr.finalize]).length = 18 + M.length := by
    simp [pushes, appends]
    omega
  refine ⟨t, hlen ▸ run_wordsOf hp hq ?_, htinbox.trans huinbox, ?_⟩
  · simpa using hrun
  · rw [htresp, huresp, hdigest, State.setInbox_responses, List.append_assoc s.responses,
      List.replicate_append_replicate]

end Sys2Proof.Safety
end

section
/-! PROOFS. Errors (60_exceptions R130 to R139): the error a command's checks find in a state, that the command raises
exactly that one, and that a command whose checks find none answers OK. -/

namespace Sys2Proof.Machine

/-! ## The error a command's checks find (R131 to R135, R138) -/

/-- The error a command raises from a state, by the status tests the command itself makes. -/
def commandError (i : Instr) (s : State) : Option ErrorCode :=
  match i with
  | .keyclr | .keypush _ => none
  | .new c d => newError s.keyCnt c d
  | .append _ => appendError s
  | .reset | .finalize => instanceError s

@[simp] theorem newError_eq_some_iff {k : Nat} {c d : Byte} {e : ErrorCode} : newError k c d = some e ↔
    (k ≠ 16 ∧ e = .invalidKeyLength) ∨ (k = 16 ∧ (c = 0 ∨ d = 0) ∧ e = .invalidRoundCount) := by
  simp only [newError, roundCount_eq_zero]
  by_cases hk : k = 16 <;> simp [hk, @eq_comm _ e]

@[simp] theorem instanceError_eq_some_iff {s : State} {e : ErrorCode} :
    instanceError s = some e ↔ s.configured = false ∧ e = .notConstructed := by
  cases hc : s.configured <;> simp [instanceError, hc, eq_comm]

@[simp] theorem appendError_eq_some_iff {s : State} {e : ErrorCode} : appendError s = some e ↔
    (s.configured = false ∧ e = .notConstructed) ∨
    (s.configured = true ∧ s.bufCap = some s.bufLen ∧ e = .bufferFull) := by
  cases hc : s.configured <;> simp [appendError, instanceError, hc, eq_comm]

theorem commandError_eq_invalidKeyLength {i : Instr} {s : State} :
    commandError i s = some .invalidKeyLength ↔ (∃ c d, i = .new c d) ∧ s.keyCnt ≠ 16 := by
  cases i <;> simp [commandError]

theorem commandError_eq_invalidRoundCount {i : Instr} {s : State} :
    commandError i s = some .invalidRoundCount ↔ (∃ c d, i = .new c d ∧ (c = 0 ∨ d = 0)) ∧ s.keyCnt = 16 := by
  cases i <;> simp [commandError, and_comm]

theorem commandError_eq_notConstructed {i : Instr} {s : State} : commandError i s = some .notConstructed ↔
    ((∃ b, i = .append b) ∨ i = .reset ∨ i = .finalize) ∧ s.configured = false := by
  cases i <;> simp [commandError]

theorem commandError_eq_bufferFull {i : Instr} {s : State} : commandError i s = some .bufferFull ↔
    (∃ b, i = .append b) ∧ s.configured = true ∧ s.bufCap = some s.bufLen := by
  cases i <;> simp [commandError]

theorem commandError_ne_illegalCommand (i : Instr) (s : State) : commandError i s ≠ some .illegalCommand := by
  cases i <;> simp [commandError]

/-! ## What a command answers (R130, R139) -/

/-- The response codes of the errors tell the errors apart. -/
theorem errorCode_code_injective : Function.Injective ErrorCode.code := by
  intro e e'
  cases e <;> cases e' <;> decide

theorem errorCode_code_ne_zero (e : ErrorCode) : e.code ≠ 0 := by cases e <;> decide

@[simp] theorem takeException_responses (e : ErrorCode) (s : State) :
    (takeException e s).responses = s.responses ++ [⟨e.code, 0⟩] := by cases e <;> rfl

/-- Raising an error of `NEW` empties the staging itself, so it does not matter that `NEW` has done so already. -/
theorem takeException_setKeyCnt_zero {k : Nat} {c d : Byte} {e : ErrorCode} (s : State) (h : newError k c d = some e) :
    takeException e (s.setKeyCnt 0) = takeException e s := by
  rcases newError_eq_some_iff.1 h with ⟨-, rfl⟩ | ⟨-, -, rfl⟩ <;> rfl

/-- A command whose checks find an error raises it, from every state. -/
theorem exec_of_commandError {i : Instr} {s : State} {e : ErrorCode} (h : commandError i s = some e) :
    exec i s = .next (takeException e s) := by
  cases i with
  | keyclr => cases h
  | keypush b => cases h
  | new c d =>
    have he : newError s.keyCnt c d = some e := h
    simp only [exec, execNew, he, takeException_setKeyCnt_zero s he]
  | append b =>
    have he : appendError s = some e := h
    simp only [exec, execAppend, he]
  | reset =>
    have he : instanceError s = some e := h
    simp only [exec, execReset, he]
  | finalize =>
    have he : instanceError s = some e := h
    simp only [exec, execFinalize, he]

/-- The next state of a command whose checks find an error is the one the error leaves. -/
theorem eq_takeException_of_exec {i : Instr} {s t : State} {e : ErrorCode} (h : exec i s = .next t)
    (he : commandError i s = some e) : t = takeException e s :=
  Host.Outcome.next.inj (h.symm.trans (exec_of_commandError he))

/-- A command that answers raises the error its checks find, or they find none and it answers OK. -/
theorem exec_answer {i : Instr} {s t : State} (h : exec i s = .next t) :
    (∃ e, commandError i s = some e ∧ t = takeException e s) ∨
      (commandError i s = none ∧ ∃ d, t.responses = s.responses ++ [⟨0, d⟩]) := by
  cases he : commandError i s with
  | some e => exact .inl ⟨e, rfl, eq_takeException_of_exec h he⟩
  | none =>
    refine .inr ⟨rfl, ?_⟩
    rcases exec_cases h with ⟨-, rfl⟩ | ⟨b, -, -, rfl⟩ | ⟨b, -, -, rfl⟩ | ⟨c, d, hk, hi, -⟩ | ⟨c, d, hk, hz, hi, -⟩ |
      ⟨c, d, -, -, -, -, rfl⟩ | ⟨hi, hc, -⟩ | ⟨b, hi, hc, hf, -⟩ | ⟨b, -, -, -, rfl⟩ | ⟨-, -, rfl⟩ | ⟨-, -, v, -, rfl⟩
    iterate 3 exact ⟨_, rfl⟩
    · cases he.symm.trans (commandError_eq_invalidKeyLength.2 ⟨⟨c, d, hi⟩, hk⟩)
    · cases he.symm.trans (commandError_eq_invalidRoundCount.2 ⟨⟨c, d, hi, hz⟩, hk⟩)
    · exact ⟨_, rfl⟩
    · cases he.symm.trans (commandError_eq_notConstructed.2 ⟨hi, hc⟩)
    · cases he.symm.trans (commandError_eq_bufferFull.2 ⟨⟨b, hi⟩, hc, hf⟩)
    all_goals exact ⟨_, rfl⟩

/-- The response names an error exactly if the checks find that error. -/
theorem exec_answers_error_iff {i : Instr} {s t : State} (h : exec i s = .next t) (e : ErrorCode) :
    (∃ d, t.responses = s.responses ++ [⟨e.code, d⟩]) ↔ commandError i s = some e := by
  rcases exec_answer h with ⟨e', he', rfl⟩ | ⟨hnone, d', hok⟩
  · simp [he', errorCode_code_injective.eq_iff]
  · simpa [hok, hnone] using (errorCode_code_ne_zero e).symm

/-- A `NEW` leaves an instance exactly if it answers `(0, 0)` (R72, R133). -/
theorem exec_new_configured_iff {c d : Byte} {s t : State} (h : exec (.new c d) s = .next t) :
    t.configured = true ↔ t.responses = s.responses ++ [⟨0, 0⟩] := by
  by_cases hk : s.keyCnt = 16
  · by_cases hz : c = 0 ∨ d = 0
    · cases (exec_new_badRounds hk hz).symm.trans h
      simp [takeException_new, ErrorCode.code]
    · obtain ⟨hc, hd⟩ := not_or.1 hz
      cases (exec_new_valid hk hc hd).symm.trans h
      simp [State.respondOk]
  · cases (exec_new_badLength c d hk).symm.trans h
    simp [takeException_new, ErrorCode.code]

/-! ## The statements -/

/-- Settles O33: the checks of `NEW` alone find code 1, and they find it exactly when `KEYCNT` is not 16. -/
theorem invalidKeyLengthOnlyFromNew : Obligations.InvalidKeyLengthOnlyFromNew := fun _ _ _ h =>
  ⟨(exec_answers_error_iff h .invalidKeyLength).trans commandError_eq_invalidKeyLength, fun hi hk =>
    eq_takeException_of_exec h (commandError_eq_invalidKeyLength.2 ⟨hi, hk⟩)⟩

/-- Settles O34: the checks of `NEW` alone find code 2, after the key length has passed. -/
theorem invalidRoundCountOnlyFromNew : Obligations.InvalidRoundCountOnlyFromNew := fun _ _ _ h =>
  ⟨(exec_answers_error_iff h .invalidRoundCount).trans commandError_eq_invalidRoundCount, fun hi hk =>
    eq_takeException_of_exec h (commandError_eq_invalidRoundCount.2 ⟨hi, hk⟩)⟩

/-- Settles O35: the three commands that need an instance make one check for it, and only `NEW` brings one about. -/
theorem notConstructedWithoutAnInstance : Obligations.NotConstructedWithoutAnInstance := by
  refine ⟨fun i s t h => ?_, fun _ => rfl, fun _ _ _ _ h => exec_new_configured_iff h⟩
  have hiff := exec_answers_error_iff h .notConstructed
  exact ⟨hiff.trans commandError_eq_notConstructed, fun hd => eq_takeException_of_exec h (hiff.1 hd)⟩

/-- Settles O36: the room is checked by `APPEND` alone, once there is an instance. -/
theorem bufferFullRefusesTheByte : Obligations.BufferFullRefusesTheByte := by
  intro i s t h
  have hiff := exec_answers_error_iff h .bufferFull
  exact ⟨hiff.trans commandError_eq_bufferFull, fun hd => eq_takeException_of_exec h (hiff.1 hd)⟩

/-- Settles O37: decoding comes before any check of the state, and no command's own checks find code 5. -/
theorem illegalCommandChangesNothing : Obligations.IllegalCommandChangesNothing :=
  ⟨fun _ _ _ _ hp hq hd => step_illegal hq hp hd, fun i s _ d h hr =>
    commandError_ne_illegalCommand i s ((exec_answers_error_iff h .illegalCommand).1 ⟨d, hr⟩)⟩

/-- Settles O38: in each overlap the check named first is the one whose error is raised. -/
theorem firstFailingCheckIsReported : Obligations.FirstFailingCheckIsReported :=
  ⟨fun _ _ _ _ hp _ hq hd => ⟨_, step_illegal hq hp hd, rfl⟩,
    fun _ c d hk _ => ⟨_, exec_new_badLength c d hk, rfl⟩,
    fun _ b hc _ => ⟨_, exec_append_notConstructed b hc, rfl⟩⟩

/-- Settles O39: a code other than 0 is that of the error raised, and each error has its own effect on the state. -/
theorem errorsChangeOnlyWhatTheyList : Obligations.ErrorsChangeOnlyWhatTheyList := by
  intro i s t r h hr hcode
  rcases exec_answer h with ⟨e, -, rfl⟩ | ⟨-, d, hok⟩
  · obtain rfl : ⟨e.code, 0⟩ = r := by simpa using hr
    cases e with
    | invalidKeyLength => exact ⟨rfl, fun _ => rfl, fun hne _ => absurd rfl hne⟩
    | invalidRoundCount => exact ⟨rfl, fun _ => rfl, fun _ hne => absurd rfl hne⟩
    | notConstructed | bufferFull | illegalCommand =>
      exact ⟨rfl, fun hnew => absurd hnew (by decide), fun _ _ => rfl⟩
  · obtain rfl : r = ⟨0, d⟩ := by simpa [hr] using hok
    exact absurd rfl hcode

end Sys2Proof.Machine
end

section
/-! PROOFS. Hardware reset at the port, and a port with nothing on it (70_reset R150; 10_state R24). -/

namespace Sys2Proof.Machine

/-- Settles O47: a reset is taken from the port before the phase is looked at, and what it leaves is `hardwareReset` of
the state without that event; a ready port with nothing on it has nothing to take. -/
theorem hardwareResetFromAnyState : Obligations.HardwareResetFromAnyState := by
  refine ⟨fun s rest hq => ⟨hardwareReset (s.setInbox rest), step_hreset hq, ?_⟩, fun _ hp hq => step_nothing hq hp⟩
  simp

end Sys2Proof.Machine
end

section
/-! PROOFS. The constants of `Init` and the words it starts from (10_state R14; 43_finalize R111). -/

namespace Sys2Proof.Machine

/-- A word is `be64` of the bytes it is written out as, most significant first. -/
theorem eq_be64_of_bytesBe {w : Word} {b : List Byte} (h : bytesBe w = b) : w = be64 b :=
  h ▸ (be64_bytesBe w).symm

/-! ## The bytes of the constants -/

theorem bytesBe_initC0 : bytesBe initC0 = [0x73, 0x6f, 0x6d, 0x65, 0x70, 0x73, 0x65, 0x75] := by decide

theorem bytesBe_initC1 : bytesBe initC1 = [0x64, 0x6f, 0x72, 0x61, 0x6e, 0x64, 0x6f, 0x6d] := by decide

theorem bytesBe_initC2 : bytesBe initC2 = [0x6c, 0x79, 0x67, 0x65, 0x6e, 0x65, 0x72, 0x61] := by decide

theorem bytesBe_initC3 : bytesBe initC3 = [0x74, 0x65, 0x64, 0x62, 0x79, 0x74, 0x65, 0x73] := by decide

/-! ## The words after `Init` -/

/-- What `Init` leaves in `V` depends on the key halves and on nothing else of the state. -/
@[simp] theorem initPhase_v (s : State) : (initPhase s).v = initV s.k0 s.k1 := by
  rw [initPhase, State.setV_v]

/-! ## The statements -/

/-- Settles O11: each number is the constant's definition, and `be64` of its bytes by the inverse law of R9. -/
theorem constantsAreBigEndianAscii : Obligations.ConstantsAreBigEndianAscii :=
  ⟨eq_be64_of_bytesBe bytesBe_initC0, rfl, eq_be64_of_bytesBe bytesBe_initC1, rfl,
    eq_be64_of_bytesBe bytesBe_initC2, rfl, eq_be64_of_bytesBe bytesBe_initC3, rfl⟩

/-- Settles O15: `V` after `Init` is `initV` of the key halves, in which the constants' values are written out. -/
theorem initXorsKeyHalvesWithConstants : Obligations.InitXorsKeyHalvesWithConstants := by
  intro s
  rw [initPhase_v, initV, initC0, initC1, initC2, initC3]

end Sys2Proof.Machine
end
